-- ==== Sys2Proof/Word.lean ====
section
/-! DEFINITION. The word, bit and text types of the block (00_scope.md R7, R16 to R18). -/

namespace Sys2Proof

/-- `Word32` of R17: an unsigned 32-bit value, bit 0 least significant (R16). -/
abbrev Word := BitVec 32

/-- The element type of the bit queue (R17, R34): a bit is `false` (0) or `true` (1), so R317's violation cannot arise. -/
abbrev Bit := Bool

/-- The opaque message body of R7. DESIGN CHOICE (log 15): a list of bytes; the block never looks inside it. -/
abbrev Text := List (BitVec 8)

end Sys2Proof
end

