-- ==== Sys2Proof/Config.lean ====
section
/-! DEFINITION. The parameters of 00_scope.md section 3: the values the block depends on and no command writes (R39, R344).
`Config` holds one value of each; the `OpenParam` constants are the ones the spec leaves OPEN without a default. -/

namespace Sys2Proof

/-- The recognized protocols (R7, R121). -/
inductive Protocol where
  | flex
  | pocsag
deriving DecidableEq, Repr

/-- The recognized message types (R7, R121). -/
inductive MsgType where
  | numeric
  | alpha
deriving DecidableEq, Repr

/-- One record of FLEX_BLOCK(f, b) (R10). The counts `a` and `nWords` are raw, count minus one (R108, R350). -/
structure FlexBlock where
  priority     : BitVec 4
  a            : BitVec 2
  vectorStart  : BitVec 6
  carryOn      : BitVec 2
  collapse     : BitVec 3
  vectorType   : BitVec 3
  messageStart : BitVec 7
  nWords       : BitVec 3
  msgCksum     : BitVec 4
  msgCodeword  : BitVec 32
deriving DecidableEq, Repr, Inhabited

/-- The parameters of R9 to R15, constant for the life of the block (R344). The three parameters that are functions
(FEC_ENCODE, BODY_ENCODER, FLEX_BLOCK) are plain data here: a table whose entries come first, over a base function that
answers where the table has no entry (`Machine/Params.lean`, `Machine/Primitives.lean`; log 1 to log 4). -/
structure Config where
  /-- POCSAG_PREAMBLE (R9). -/
  pocsagPreamble    : List Bit
  /-- POCSAG_IDLE (R9, R107). -/
  pocsagIdle        : Word
  /-- FLEX_BS (R9). -/
  flexBs            : List Bit
  /-- FLEX_A1 (R9). -/
  flexA1            : Word
  /-- FLEX_B (R9). -/
  flexB             : List Bit
  /-- FLEX_CB (R9). -/
  flexCb            : List Bit
  /-- FLEX_ROAMING (R10). -/
  flexRoaming       : BitVec 1
  /-- FLEX_REPEAT (R10). -/
  flexRepeat        : BitVec 1
  /-- FLEX_T (R10). -/
  flexT             : BitVec 4
  /-- FLEX_BLOCK (R10): entries ((f, b), record) over `OpenParam.flexBlock`. -/
  flexBlocks        : List ((Nat × Nat) × FlexBlock)
  /-- FLEX_ADDR_OFFSET (R10). -/
  flexAddrOffset    : Nat
  /-- FEC_ENCODE (R11, R143): entries (data bits, codeword) over the default code of R144. -/
  fecTable          : List (BitVec 21 × Word)
  /-- BODY_ENCODER (R12): entries ((type, text), codewords) over `OpenParam.bodyEncoder`. -/
  bodyTable         : List ((MsgType × Text) × List Word)
  /-- POCSAG_FUNC(Numeric) (R13). -/
  pocsagFuncNumeric : BitVec 2
  /-- POCSAG_FUNC(Alpha) (R13). -/
  pocsagFuncAlpha   : BitVec 2
  /-- QUEUE_CAPACITY (R14), at most 2^32 - 1 (R36). -/
  queueCapacity     : Fin 4294967296
  /-- SYMBOL_REPR(POS) (R15, I10, D16; log 14). -/
  symbolReprPos     : Rat
  /-- SYMBOL_REPR(NEG) (R15, I10, D16; log 14). -/
  symbolReprNeg     : Rat
deriving DecidableEq, Repr

/-- FLEX_BS where nothing sets it: OPEN (R9, I7), a free value (log 4). -/
opaque OpenParam.flexBs : List Bit

/-- FLEX_A1 where nothing sets it: OPEN (R9, I7), a free value (log 4). -/
opaque OpenParam.flexA1 : Word

/-- FLEX_B where nothing sets it: OPEN (R9, I7), a free value (log 4). -/
opaque OpenParam.flexB : List Bit

/-- FLEX_CB where nothing sets it: OPEN (R9, I7), a free value (log 4). -/
opaque OpenParam.flexCb : List Bit

/-- FLEX_BLOCK where no table entry sets it: OPEN (R10, I8), a free value (log 4). -/
opaque OpenParam.flexBlock : Nat → Nat → FlexBlock

/-- BODY_ENCODER where no table entry sets it: OPEN (R12, I9), a free value (log 3). -/
opaque OpenParam.bodyEncoder : MsgType → Text → List Word

/-- SYMBOL_REPR of POS where nothing sets it: OPEN (R15, I10, D16), a free value (log 14). -/
opaque OpenParam.symbolReprPos : Rat

/-- SYMBOL_REPR of NEG where nothing sets it: OPEN (R15, I10, D16), a free value (log 14). -/
opaque OpenParam.symbolReprNeg : Rat

end Sys2Proof
end

