-- ==== Sys2Proof/Syntax.lean ====
section
/-! DEFINITION. The instructions of spec/opcode_table.json, one constructor per row, and the forms in which words reach the
block's two decoders (30_encoding.md R110 to R117). -/

namespace Sys2Proof

/-- The host commands (R113) and the sequencer's micro-ops (R114). Every operand has exactly its field's width (R162).
The FIW field "repeat" is spelled `rept`. -/
inductive Instr where
  /-- RESET (R282). -/
  | reset
  /-- CONSTRUCT (R283). `protocol` and `msgType` are raw 8-bit codes: unrecognized codes are errors, not refusals (R117). -/
  | construct (protocol msgType : BitVec 8) (baudRate symbolRate capcode : Word) (body : Text)
  /-- FETCH (R284). -/
  | fetch (maxCount : Word)
  /-- READ_STATUS (R285). -/
  | readStatus
  /-- ADD_CHECKSUM (R140). -/
  | addChecksum (w : Word)
  /-- PARITY (R141). -/
  | parity (x : Word)
  /-- REVERSE32 (R142). -/
  | reverse32 (x : Word)
  /-- FEC_ENCODE (R143). -/
  | fecEncode (x : Word)
  /-- BUILD_FIW (R161). -/
  | buildFiw (cycle : BitVec 4) (frame : BitVec 7) (roaming rept : BitVec 1) (t : BitVec 4)
  /-- BUILD_BIW1 (R163). -/
  | buildBiw1 (priority : BitVec 4) (a : BitVec 2) (vectorStart : BitVec 6) (carryOn : BitVec 2) (collapse : BitVec 3)
  /-- BUILD_SADDR (R164). -/
  | buildSaddr (address : Word)
  /-- BUILD_NVW (R165). -/
  | buildNvw (vectorType : BitVec 3) (messageStart : BitVec 7) (nWords : BitVec 3) (cksum : BitVec 4)
  /-- BUILD_PADDR (R166). -/
  | buildPaddr (capcode : Word) (func : BitVec 2)
  /-- QBIT (R251), a micro-op. -/
  | qbit (b : Bit)
  /-- QWORD (R252), a micro-op. -/
  | qword (w : Word)
  /-- QVEC (R253), a micro-op. -/
  | qvec (pid : BitVec 8)
deriving DecidableEq, Repr

/-- Whether the instruction is a micro-op of the sequencer (R114, R254); every other one is a host command. -/
def Instr.isMicro : Instr → Bool
  | .reset => false
  | .construct _ _ _ _ _ _ => false
  | .fetch _ => false
  | .readStatus => false
  | .addChecksum _ => false
  | .parity _ => false
  | .reverse32 _ => false
  | .fecEncode _ => false
  | .buildFiw _ _ _ _ _ => false
  | .buildBiw1 _ _ _ _ _ => false
  | .buildSaddr _ => false
  | .buildNvw _ _ _ _ => false
  | .buildPaddr _ _ => false
  | .qbit _ => true
  | .qword _ => true
  | .qvec _ => true

/-- The pure commands of R286. -/
def Instr.isPure : Instr → Bool
  | .reset => false
  | .construct _ _ _ _ _ _ => false
  | .fetch _ => false
  | .readStatus => false
  | .addChecksum _ => true
  | .parity _ => true
  | .reverse32 _ => true
  | .fecEncode _ => true
  | .buildFiw _ _ _ _ _ => true
  | .buildBiw1 _ _ _ _ _ => true
  | .buildSaddr _ => true
  | .buildNvw _ _ _ _ => true
  | .buildPaddr _ _ => true
  | .qbit _ => false
  | .qword _ => false
  | .qvec _ => false

/-- What the host issues as one command (R280): a command word with its argument words, and the side payload `body`,
which is empty for every command but CONSTRUCT (R111). -/
structure Transaction where
  words : List Word
  body  : Text
deriving DecidableEq, Repr

/-- The reasons of a REFUSED response (R112). -/
inductive RefuseReason where
  | illegalOpcode
  | reservedBits
  | wrongPhase
deriving DecidableEq, Repr

/-- What the host decoder answers (R116). `malformed`: the transaction has not the shape of any command (log 7). -/
inductive HostDecode where
  | command (i : Instr)
  | refuse (r : RefuseReason)
  | malformed
deriving DecidableEq, Repr

/-- Why the sequencer's decoder rejects micro-op words (R114, R115); the fixed micro-programs never hold such words. -/
inductive MicroReject where
  /-- No micro-op word is left, or its opcode is none of 0x80 to 0x82. -/
  | notMicroOp
  /-- A reserved bit of the micro-op word is 1 (R114). -/
  | reservedBits
  /-- QVEC with a pattern identifier 4 to 255 (R115, I13). -/
  | reservedPattern
  /-- QWORD without its operand word (R114). -/
  | missingOperand
deriving DecidableEq, Repr

end Sys2Proof
end

