-- ==== Sys2Proof/WellFormed.lean ====
section
/-! DEFINITION. Which instruction terms the encodings admit. Operands have exactly their field's width (R162), so the one
check left is R115's: a QVEC pattern identifier is 0 to 3. -/

namespace Sys2Proof

/-- The instruction has an encoding that is not reserved (R115; all other operands by their widths, R162). -/
def Instr.wf : Instr → Bool
  | .qvec pid => decide (pid.toNat < 4)
  | .reset => true
  | .construct _ _ _ _ _ _ => true
  | .fetch _ => true
  | .readStatus => true
  | .addChecksum _ => true
  | .parity _ => true
  | .reverse32 _ => true
  | .fecEncode _ => true
  | .buildFiw _ _ _ _ _ => true
  | .buildBiw1 _ _ _ _ _ => true
  | .buildSaddr _ => true
  | .buildNvw _ _ _ _ => true
  | .buildPaddr _ _ => true
  | .qbit _ => true
  | .qword _ => true

end Sys2Proof
end

