-- ==== Sys2Proof/Decode.lean ====
section
/-! DEFINITION. The two decoders, written from 30_encoding.md: the host command decoder (R110, R111, R113, R116, R117) and
the sequencer's micro-op decoder (R114, R115); then the encoder, written from the same tables. -/

namespace Sys2Proof

/-! ## Host commands -/

/-- A command whose opcode takes no argument word. -/
def noArgument (args : List Word) (body : Text) (i : Instr) : HostDecode :=
  match args, body with
  | [], [] => .command i
  | _, _ => .malformed

/-- A command whose opcode takes one argument word. -/
def oneArgument (args : List Word) (body : Text) (f : Word → HostDecode) : HostDecode :=
  match args, body with
  | [arg0], [] => f arg0
  | _, _ => .malformed

/-- A command whose opcode takes two argument words. -/
def twoArguments (args : List Word) (body : Text) (f : Word → Word → HostDecode) : HostDecode :=
  match args, body with
  | [arg0, arg1], [] => f arg0 arg1
  | _, _ => .malformed

/-- CONSTRUCT's four argument words (R113, R283); ARG0[31:16] is reserved. -/
def decodeConstruct (args : List Word) (body : Text) : HostDecode :=
  match args with
  | [arg0, arg1, arg2, arg3] =>
    if arg0.extractLsb' 16 16 = 0#16 then
      .command (.construct (arg0.extractLsb' 0 8) (arg0.extractLsb' 8 8) arg1 arg2 arg3 body)
    else .refuse .reservedBits
  | _ => .malformed

/-- The reserved bits [3:0] and [31:21] of a FLEX builder's ARG0 are 0 (R113). -/
def flexArgumentClean (arg0 : Word) : Bool :=
  arg0.extractLsb' 0 4 == 0#4 && arg0.extractLsb' 21 11 == 0#11

/-- ARG0 of BUILD_FIW (R113). -/
def decodeFiw (arg0 : Word) : HostDecode :=
  if flexArgumentClean arg0 then
    .command (.buildFiw (arg0.extractLsb' 4 4) (arg0.extractLsb' 8 7) (arg0.extractLsb' 15 1) (arg0.extractLsb' 16 1)
      (arg0.extractLsb' 17 4))
  else .refuse .reservedBits

/-- ARG0 of BUILD_BIW1 (R113). -/
def decodeBiw1 (arg0 : Word) : HostDecode :=
  if flexArgumentClean arg0 then
    .command (.buildBiw1 (arg0.extractLsb' 4 4) (arg0.extractLsb' 8 2) (arg0.extractLsb' 10 6) (arg0.extractLsb' 16 2)
      (arg0.extractLsb' 18 3))
  else .refuse .reservedBits

/-- ARG0 of BUILD_NVW (R113). -/
def decodeNvw (arg0 : Word) : HostDecode :=
  if flexArgumentClean arg0 then
    .command (.buildNvw (arg0.extractLsb' 4 3) (arg0.extractLsb' 7 7) (arg0.extractLsb' 14 3) (arg0.extractLsb' 17 4))
  else .refuse .reservedBits

/-- ARG0 and ARG1 of BUILD_PADDR (R113); ARG1[31:2] is reserved. -/
def decodePaddr (arg0 arg1 : Word) : HostDecode :=
  if arg1.extractLsb' 2 30 = 0#30 then .command (.buildPaddr arg0 (arg1.extractLsb' 0 2))
  else .refuse .reservedBits

/-- Steps (2) and (3) of R116 on an opcode of R113: its argument words and their reserved bits. -/
def decodeOpcode (opc : Nat) (args : List Word) (body : Text) : HostDecode :=
  match opc with
  | 0x01 => noArgument args body .reset
  | 0x02 => decodeConstruct args body
  | 0x03 => oneArgument args body fun arg0 => .command (.fetch arg0)
  | 0x04 => noArgument args body .readStatus
  | 0x10 => oneArgument args body fun arg0 => .command (.addChecksum arg0)
  | 0x11 => oneArgument args body fun arg0 => .command (.parity arg0)
  | 0x12 => oneArgument args body fun arg0 => .command (.reverse32 arg0)
  | 0x13 => oneArgument args body fun arg0 => .command (.fecEncode arg0)
  | 0x20 => oneArgument args body decodeFiw
  | 0x21 => oneArgument args body decodeBiw1
  | 0x22 => oneArgument args body fun arg0 => .command (.buildSaddr arg0)
  | 0x23 => oneArgument args body decodeNvw
  | 0x24 => twoArguments args body decodePaddr
  | _ => .refuse .illegalOpcode

/-- The host decoder: steps (1) to (3) of R116 in their order; step (4), the phase, is checked by the command itself.
A transaction without a command word, or whose words or payload do not fit its opcode (R111, R118), is `malformed`. -/
def decodeHost (tx : Transaction) : HostDecode :=
  match tx.words with
  | [] => .malformed
  | c :: args =>
    if c.extractLsb' 8 24 = 0#24 then decodeOpcode (c.extractLsb' 0 8).toNat args tx.body
    else .refuse .reservedBits

/-! ## Micro-ops -/

/-- The sequencer's decoder (R114, R115): one micro-op from the front of the micro-program, with the words after it. -/
def decodeMicro (words : List Word) : Except MicroReject (Instr × List Word) :=
  match words with
  | [] => .error .notMicroOp
  | c :: rest =>
    match (c.extractLsb' 0 8).toNat with
    | 0x80 =>
      if c.extractLsb' 9 23 = 0#23 then .ok (.qbit (c.getLsbD 8), rest) else .error .reservedBits
    | 0x81 =>
      if c.extractLsb' 8 24 = 0#24 then
        match rest with
        | w :: rest' => .ok (.qword w, rest')
        | [] => .error .missingOperand
      else .error .reservedBits
    | 0x82 =>
      if c.extractLsb' 16 16 = 0#16 then
        if (c.extractLsb' 8 8).toNat < 4 then .ok (.qvec (c.extractLsb' 8 8), rest) else .error .reservedPattern
      else .error .reservedBits
    | _ => .error .notMicroOp

/-! ## Encoder -/

/-- A field placed with its bit 0 at bit `lo` of a word (R16). -/
def fieldAt {n : Nat} (lo : Nat) (v : BitVec n) : Word := v.setWidth 32 <<< lo

/-- The command word (R110, R113) or micro-op word (R114), then the argument words or the operand word, fields at the
places R113 and R114 give them, reserved bits 0. -/
def encode : Instr → List Word
  | .reset => [0x00000001#32]
  | .construct protocol msgType baudRate symbolRate capcode _ =>
    [0x00000002#32, fieldAt 0 protocol ||| fieldAt 8 msgType, baudRate, symbolRate, capcode]
  | .fetch maxCount => [0x00000003#32, maxCount]
  | .readStatus => [0x00000004#32]
  | .addChecksum w => [0x00000010#32, w]
  | .parity x => [0x00000011#32, x]
  | .reverse32 x => [0x00000012#32, x]
  | .fecEncode x => [0x00000013#32, x]
  | .buildFiw cycle frame roaming rept t =>
    [0x00000020#32, fieldAt 4 cycle ||| fieldAt 8 frame ||| fieldAt 15 roaming ||| fieldAt 16 rept ||| fieldAt 17 t]
  | .buildBiw1 priority a vectorStart carryOn collapse =>
    [0x00000021#32, fieldAt 4 priority ||| fieldAt 8 a ||| fieldAt 10 vectorStart ||| fieldAt 16 carryOn ||| fieldAt 18 collapse]
  | .buildSaddr address => [0x00000022#32, address]
  | .buildNvw vectorType messageStart nWords cksum =>
    [0x00000023#32, fieldAt 4 vectorType ||| fieldAt 7 messageStart ||| fieldAt 14 nWords ||| fieldAt 17 cksum]
  | .buildPaddr capcode func => [0x00000024#32, capcode, fieldAt 0 func]
  | .qbit b => [0x00000080#32 ||| fieldAt 8 (BitVec.ofBool b)]
  | .qword w => [0x00000081#32, w]
  | .qvec pid => [0x00000082#32 ||| fieldAt 8 pid]

/-- The side payload that goes with the words (R111): CONSTRUCT's body, and none for any other instruction. -/
def payload : Instr → Text
  | .construct _ _ _ _ _ body => body
  | .reset => []
  | .fetch _ => []
  | .readStatus => []
  | .addChecksum _ => []
  | .parity _ => []
  | .reverse32 _ => []
  | .fecEncode _ => []
  | .buildFiw _ _ _ _ _ => []
  | .buildBiw1 _ _ _ _ _ => []
  | .buildSaddr _ => []
  | .buildNvw _ _ _ _ => []
  | .buildPaddr _ _ => []
  | .qbit _ => []
  | .qword _ => []
  | .qvec _ => []

/-- A host command as the host issues it (R280). -/
def encodeHost (i : Instr) : Transaction := { words := encode i, body := payload i }

/-! ## Words numbered as the opcode table numbers them -/

/-- How many words follow a word with this opcode (R118): argument words of a command, the operand word of QWORD. -/
def wordsAfter (opc : Nat) : Nat :=
  match opc with
  | 0x02 => 4
  | 0x03 => 1
  | 0x10 => 1
  | 0x11 => 1
  | 0x12 => 1
  | 0x13 => 1
  | 0x20 => 1
  | 0x21 => 1
  | 0x22 => 1
  | 0x23 => 1
  | 0x24 => 2
  | 0x81 => 1
  | _ => 0

/-- Whether a first word is a micro-op word by its opcode (R114). -/
def isMicroWord (c : Word) : Bool := 0x80 ≤ (c.extractLsb' 0 8).toNat && (c.extractLsb' 0 8).toNat ≤ 0x82

/-- The words of an instruction whose bits are the low `nbits` bits of `w`, the first word in bits 31..0, the next in bits
63..32 and so on, every bit above `nbits` being 0. -/
def tableWords (nbits w : Nat) : List Word :=
  let v := w % 2 ^ nbits
  let c := BitVec.ofNat 32 v
  c :: (List.range (wordsAfter (c.extractLsb' 0 8).toNat)).map fun k => BitVec.ofNat 32 (v / 2 ^ (32 * (k + 1)))

/-- The instruction the decoder reads from those words: the micro-op decoder for a micro-op word, else the host decoder. -/
def decodeTableWord (nbits w : Nat) : Option Instr :=
  let words := tableWords nbits w
  if isMicroWord (words.headD 0#32) then
    match decodeMicro words with
    | .ok (i, _) => some i
    | .error _ => none
  else
    match decodeHost { words := words, body := [] } with
    | .command i => some i
    | .refuse _ => none
    | .malformed => none

end Sys2Proof
end

