-- ==== Sys2Proof/Machine/Params.lean ====
section
/-! DEFINITION. The values the spec gives for the parameters of 00_scope.md section 3, and how the parameters that are
functions are read from the configuration. -/

namespace Sys2Proof.Machine

/-- POCSAG_SYNC, the source's literal (R8, R9, R107), normative as written (I16). -/
def pocsagSync : Word := 0x7CD215D8#32

/-- The short-address bounds (R8, R164). -/
def shortAddressMin : Nat := 32769

/-- The short-address bounds (R8, R164). -/
def shortAddressMax : Nat := 1966080

/-- The POCSAG capcode bound (R166, D21). -/
def pocsagCapcodeMax : Nat := 2097151

/-- The default preamble, 576 bits 1,0,1,0,... starting with 1 (R9, I3, log 5). -/
def defaultPreamble : List Bit := (List.range 576).map fun k => k % 2 == 0

/-- The configuration at reset: the spec's default where it gives one (R9 to R14; log 2, log 5), a free value where it
leaves the parameter OPEN (log 3, log 4, log 14). -/
def defaultConfig : Config where
  pocsagPreamble := defaultPreamble
  pocsagIdle := 0x7A89C197#32
  flexBs := OpenParam.flexBs
  flexA1 := OpenParam.flexA1
  flexB := OpenParam.flexB
  flexCb := OpenParam.flexCb
  flexRoaming := 0#1
  flexRepeat := 0#1
  flexT := 0#4
  flexBlocks := []
  flexAddrOffset := 0
  fecTable := []
  bodyTable := []
  pocsagFuncNumeric := 0b00#2
  pocsagFuncAlpha := 0b11#2
  queueCapacity := ⟨4294967295, by decide⟩
  symbolReprPos := OpenParam.symbolReprPos
  symbolReprNeg := OpenParam.symbolReprNeg

/-- PATTERN(pid) of R253 and R115: none for the reserved identifiers 4 to 255. -/
def pattern (cfg : Config) (pid : BitVec 8) : Option (List Bit) :=
  match pid.toNat with
  | 0 => some cfg.pocsagPreamble
  | 1 => some cfg.flexBs
  | 2 => some cfg.flexB
  | 3 => some cfg.flexCb
  | _ => none

/-- FLEX_BLOCK(f, b) (R10). -/
def flexBlock (cfg : Config) (f b : Nat) : FlexBlock := (cfg.flexBlocks.lookup (f, b)).getD (OpenParam.flexBlock f b)

/-- BODY_ENCODER(msg_type, body) (R12, R221): finished codewords, queued unchanged (D22, C12). -/
def bodyEncoder (cfg : Config) (mt : MsgType) (body : Text) : List Word :=
  (cfg.bodyTable.lookup (mt, body)).getD (OpenParam.bodyEncoder mt body)

/-- POCSAG_FUNC(msg_type) (R13). -/
def pocsagFunc (cfg : Config) : MsgType → BitVec 2
  | .numeric => cfg.pocsagFuncNumeric
  | .alpha => cfg.pocsagFuncAlpha

/-- The protocol codes of R121: 2 to 255 are unrecognized. -/
def protocolOf (code : BitVec 8) : Option Protocol :=
  match code.toNat with
  | 0 => some .flex
  | 1 => some .pocsag
  | _ => none

/-- The message type codes of R121: 2 to 255 are unrecognized. -/
def msgTypeOf (code : BitVec 8) : Option MsgType :=
  match code.toNat with
  | 0 => some .numeric
  | 1 => some .alpha
  | _ => none

end Sys2Proof.Machine
end

