-- ==== Sys2Proof/Machine/Primitives.lean ====
section
/-! DEFINITION. The bit primitives of 40_bit_primitives.md: checksum, parity, reversal and the FEC codeword wrapper, as pure
functions; and the emission order of a word (R18, R74). -/

namespace Sys2Proof.Machine

/-- `msb_bits(w)` of R18: bit 31 first, down to bit 0 (R21, R74). -/
def msbBits (w : Word) : List Bit := (List.range 32).map fun k => w.getLsbD (31 - k)

/-- The sum R140 takes the complement of: four nibbles of bits [19:4] and bit 20, an unbounded number (C2). -/
def checksumSum (w : Word) : Nat :=
  (w.extractLsb' 4 4).toNat + (w.extractLsb' 8 4).toNat + (w.extractLsb' 12 4).toNat + (w.extractLsb' 16 4).toNat
    + (w.extractLsb' 20 1).toNat

/-- ADD_CHECKSUM (R140). Bits [3:0] are replaced, bits [31:4] kept (D19). -/
def addChecksum (w : Word) : Word := (w &&& 0xFFFFFFF0#32) ||| BitVec.ofNat 32 (15 - checksumSum w % 16)

/-- `popcount` of R17: the number of one bits. -/
def popcount (x : Word) : Nat := (List.range 32).countP fun k => x.getLsbD k

/-- PARITY (R141): 1 in bit 0 when the number of one bits is odd, else 0. -/
def parity (x : Word) : Word := BitVec.ofNat 32 (popcount x % 2)

/-- REVERSE32 (R142): bit i of the result is bit 31 - i of `x`. -/
def reverse32 (x : Word) : Word := x.reverse

/-- The generator polynomial of the default code, coefficients 0b11101101001 (R144). -/
def fecGenerator : BitVec 31 := 0x769#31

/-- One pass of R144's division loop at bit `i`. -/
def fecStep (r : BitVec 31) (i : Nat) : BitVec 31 :=
  if r.getLsbD i then r ^^^ (fecGenerator <<< (i - 10)) else r

/-- R144's loop, `i` from 30 down to 10. -/
def fecRemainder (r : BitVec 31) : BitVec 31 := ((List.range 21).map fun k => 30 - k).foldl fecStep r

/-- FEC_DEFAULT (R144): data in [31:11], check bits in [10:1], bit 0 making the parity of the whole word even. The default is
the spec's, from general knowledge and not from its source (I2, log 2). -/
def fecDefault (d : BitVec 21) : Word :=
  let r := fecRemainder (d.setWidth 31 <<< 10)
  let c := (d.setWidth 32 <<< 11) ||| ((r.setWidth 32 &&& 0x3FF#32) <<< 1)
  c ||| parity c

/-- FEC_PARAM of R143: the table of the configuration, over the default code. Every total function of the 21 data bits is
one of these (`Laws/Primitives.lean`), so a claim about every configuration is a claim about every FEC_ENCODE (log 2). -/
def fecParam (cfg : Config) (d : BitVec 21) : Word := (cfg.fecTable.lookup d).getD (fecDefault d)

/-- FEC_ENCODE (R143): only bits [31:11] of the input are read (D17, C1). -/
def fecEncode (cfg : Config) (x : Word) : Word := fecParam cfg (x.extractLsb' 11 21)

end Sys2Proof.Machine
end

