-- ==== Sys2Proof/Machine/State.lean ====
section
/-! DEFINITION. The state of one encoder instance (10_state.md), its command port, the position of its sequencer, and the
ways a step stops. -/

namespace Sys2Proof.Machine

/-- The lifecycle phase (R32). -/
inductive Phase where
  | idle
  | ready
  | drained
  | failed
deriving DecidableEq, Repr

/-- The five error classes (R310, R311). -/
inductive ErrorClass where
  | configuration
  | range
  | unsupportedType
  | internalConsistency
  | capacity
deriving DecidableEq, Repr

/-- A polar output symbol: POS is +1, NEG is -1 (R15, R257). Its numeric form is `symbolRepr`. -/
inductive Symbol where
  | pos
  | neg
deriving DecidableEq, Repr

/-- The responses (R112). -/
inductive Response where
  | ok
  | value (v : Word)
  | status (status qlen : Word)
  | error (code : BitVec 3)
  | symbols (list : List Symbol)
  | eos
  | refused (reason : RefuseReason)
deriving DecidableEq, Repr

/-- The assembly sequencer inside one CONSTRUCT transition (R31): the replication factor R (R250) and the micro-op words
still to run (R114). -/
structure Sequencer where
  rep  : Nat
  prog : List Word
deriving DecidableEq, Repr

/-- The state. `phase`, `err` and `q` are the spec's S (R40); the other fields are the model's own (log 1, 6, 7, 8). -/
structure State where
  /-- S.phase (R32). -/
  phase     : Phase
  /-- S.err (R33). -/
  err       : BitVec 3
  /-- S.Q (R34), front first. -/
  q         : List Bit
  /-- The sequencer's position inside a CONSTRUCT transition; none between commands (R31, R79; log 6). -/
  seq       : Option Sequencer
  /-- The transactions the host has issued and the block has not performed, oldest first (R280; log 7). -/
  commands  : List Transaction
  /-- The responses returned, oldest first (R112, R280; log 8). -/
  responses : List Response
  /-- The parameters of R9 to R15, which no step writes (R39, R344; log 1). -/
  cfg       : Config
deriving DecidableEq, Repr

/-- The state after RESET (R41, R340) with no transition in progress and no command issued. -/
def State.reset : State where
  phase := .idle
  err := 0#3
  q := []
  seq := none
  commands := []
  responses := []
  cfg := defaultConfig

/-- Why the machine stops with a fault: never. Every error of the spec is a response after which the block goes on
(R310, R318), so there is no constructor (log 19). -/
inductive Fault where
deriving DecidableEq, Repr

/-- Why the model has no meaning for what it is given. -/
inductive Refusal where
  /-- Raised by exec's arm of an instruction that has no meaning yet. Safe. -/
  | notModelled (mnemonic : String)
  /-- Raised by the command port on a transaction that has not the shape of any command (R111, R118). Safe (log 7). -/
  | malformedTransaction
  /-- Raised by the sequencer on micro-op words its decoder rejects (R114, R115). Safe (log 12). -/
  | badMicroOp (why : MicroReject)
  /-- Raised by QVEC on a reserved pattern identifier (R115, I13). Safe (log 11). -/
  | reservedPattern (pid : BitVec 8)
deriving DecidableEq, Repr

end Sys2Proof.Machine
end

