-- ==== Sys2Proof/Machine/Operands.lean ====
section
/-! DEFINITION. The data words the builders pack their operands into (30_encoding.md R101 to R106, by the pseudocode of
41_word_builders.md), and CONSTRUCT's checked arguments (R283, R314). -/

namespace Sys2Proof.Machine

/-- The FIW data word before its checksum (R102, R161). -/
def fiwData (cycle : BitVec 4) (frame : BitVec 7) (roaming rept : BitVec 1) (t : BitVec 4) : Word :=
  cycle.setWidth 32 <<< 4 ||| frame.setWidth 32 <<< 8 ||| roaming.setWidth 32 <<< 15 ||| rept.setWidth 32 <<< 16
    ||| t.setWidth 32 <<< 17

/-- The BIW1 data word before its checksum (R103, R163); `a` is stored raw (R108). -/
def biw1Data (priority : BitVec 4) (a : BitVec 2) (vectorStart : BitVec 6) (carryOn : BitVec 2) (collapse : BitVec 3) : Word :=
  priority.setWidth 32 <<< 4 ||| a.setWidth 32 <<< 8 ||| vectorStart.setWidth 32 <<< 10 ||| carryOn.setWidth 32 <<< 16
    ||| collapse.setWidth 32 <<< 18

/-- The NVW data word before its checksum (R105, R165); `nWords` is stored raw (R108). -/
def nvwData (vectorType : BitVec 3) (messageStart : BitVec 7) (nWords : BitVec 3) (cksum : BitVec 4) : Word :=
  vectorType.setWidth 32 <<< 4 ||| messageStart.setWidth 32 <<< 7 ||| nWords.setWidth 32 <<< 14 ||| cksum.setWidth 32 <<< 17

/-- `addrTemp`, the POCSAG address word before FEC (R106, R166, C8). -/
def paddrTemp (capcode : Word) (func : BitVec 2) : Word := (capcode >>> 3) <<< 13 ||| func.setWidth 32 <<< 11

/-- The short-address range (R164). -/
def shortAddressOk (address : Nat) : Bool := decide (shortAddressMin ≤ address) && decide (address ≤ shortAddressMax)

/-- CONSTRUCT's checks (1) to (3) of R314, first one first, with the replication factor of R250. -/
def checkArguments (protocol msgType : BitVec 8) (baudRate symbolRate : Word) : Except ErrorClass (Protocol × MsgType × Nat) :=
  match protocolOf protocol with
  | none => .error .configuration
  | some p =>
    if baudRate.toNat = 0 ∨ symbolRate.toNat = 0 ∨ symbolRate.toNat % baudRate.toNat ≠ 0 then .error .configuration
    else
      match msgTypeOf msgType with
      | none => .error .unsupportedType
      | some mt => .ok (p, mt, symbolRate.toNat / baudRate.toNat)

end Sys2Proof.Machine
end

