-- ==== Sys2Proof/Machine/Builders.lean ====
section
/-! DEFINITION. The word builders of 41_word_builders.md as pure functions of the configuration and their operands, shared by
the host's pure commands and the batch micro-programs. -/

namespace Sys2Proof.Machine

/-- FLEX_WRAP (R160): FIW, BIW1 and NVW. -/
def flexWrap (cfg : Config) (w : Word) : Word := fecEncode cfg (reverse32 (addChecksum w))

/-- FLEX_WRAP_NC (R160, C3): the short address, without checksum. -/
def flexWrapNc (cfg : Config) (w : Word) : Word := fecEncode cfg (reverse32 w)

/-- POCSAG_WRAP (R160, C4): the POCSAG address, neither checksum nor reversal. -/
def pocsagWrap (cfg : Config) (t : Word) : Word := fecEncode cfg t

/-- BUILD_FIW (R161). -/
def buildFiw (cfg : Config) (cycle : BitVec 4) (frame : BitVec 7) (roaming rept : BitVec 1) (t : BitVec 4) : Word :=
  flexWrap cfg (fiwData cycle frame roaming rept t)

/-- BUILD_BIW1 (R163). -/
def buildBiw1 (cfg : Config) (priority : BitVec 4) (a : BitVec 2) (vectorStart : BitVec 6) (carryOn : BitVec 2)
    (collapse : BitVec 3) : Word :=
  flexWrap cfg (biw1Data priority a vectorStart carryOn collapse)

/-- BUILD_SADDR (R164, C9): RangeError outside 32769 to 1966080. -/
def buildSaddr (cfg : Config) (address : Word) : Except ErrorClass Word :=
  if shortAddressOk address.toNat then .ok (flexWrapNc cfg address) else .error .range

/-- BUILD_NVW (R165). -/
def buildNvw (cfg : Config) (vectorType : BitVec 3) (messageStart : BitVec 7) (nWords : BitVec 3) (cksum : BitVec 4) : Word :=
  flexWrap cfg (nvwData vectorType messageStart nWords cksum)

/-- BUILD_PADDR (R166): RangeError above 2^21 - 1, then InternalConsistencyError when the codeword's bits [31:11] are not
`addrTemp`'s (D26). -/
def buildPaddr (cfg : Config) (capcode : Word) (func : BitVec 2) : Except ErrorClass Word :=
  if pocsagCapcodeMax < capcode.toNat then .error .range
  else
    let addrTemp := paddrTemp capcode func
    let addrWord := pocsagWrap cfg addrTemp
    if addrWord.extractLsb' 11 21 = addrTemp.extractLsb' 11 21 then .ok addrWord else .error .internalConsistency

end Sys2Proof.Machine
end

