-- ==== Sys2Proof/Machine/Batch.lean ====
section
/-! DEFINITION. The two batch micro-programs: FLEX_BATCH (42_flex_batch.md R190) and POCSAG_BATCH (43_pocsag_batch.md R220),
as the micro-ops they consist of (QFILL and QREPV already expanded, R120), and as micro-op words (R114). -/

namespace Sys2Proof.Machine

/-- The pattern identifiers (R115). -/
def pidPreamble : BitVec 8 := 0#8
/-- The pattern identifiers (R115). -/
def pidFlexBs : BitVec 8 := 1#8
/-- The pattern identifiers (R115). -/
def pidFlexB : BitVec 8 := 2#8
/-- The pattern identifiers (R115). -/
def pidFlexCb : BitVec 8 := 3#8

/-- QFILL n, w (R120). -/
def qfill (n : Nat) (w : Word) : List Instr := List.replicate n (.qword w)

/-- QREPV n, P (R120). -/
def qrepv (n : Nat) (pid : BitVec 8) : List Instr := List.replicate n (.qvec pid)

/-! ## FLEX -/

/-- One block (R197): BIW1, short address, NVW, message codeword, four bit-sync fillers. -/
def flexBlockOps (cfg : Config) (saddr : Word) (p : FlexBlock) : List Instr :=
  [.qword (buildBiw1 cfg p.priority p.a p.vectorStart p.carryOn p.collapse), .qword saddr,
    .qword (buildNvw cfg p.vectorType p.messageStart p.nWords p.msgCksum), .qword p.msgCodeword] ++ qrepv 4 pidFlexBs

/-- The header, frame-info word and control-block pattern of frame `f` (R193 to R195). -/
def flexHeaderOps (cfg : Config) (f : Nat) : List Instr :=
  [.qvec pidFlexBs, .qword cfg.flexA1, .qword (~~~cfg.flexA1), .qvec pidFlexB,
    .qword (buildFiw cfg 0#4 (BitVec.ofNat 7 f) cfg.flexRoaming cfg.flexRepeat cfg.flexT), .qvec pidFlexCb]

/-- One frame: its header, then blocks 0 to 10 (R196). -/
def flexFrameOps (cfg : Config) (saddr : Word) (f : Nat) : List Instr :=
  flexHeaderOps cfg f ++ (List.range 11).flatMap fun b => flexBlockOps cfg saddr (flexBlock cfg f b)

/-- The short address of a capcode, without wrap-around (R191). -/
def flexAddress (cfg : Config) (capcode : Word) : Nat := capcode.toNat + cfg.flexAddrOffset

/-- FLEX_BATCH (R190): the address is checked once, before the first micro-op (R191, C13); one cycle of frames 0 to 9
(R192, C5) and nothing after (R198). Every block's BUILD_SADDR has the same operand and is evaluated once. -/
def flexBatch (cfg : Config) (capcode : Word) : Except ErrorClass (List Instr) :=
  if shortAddressOk (flexAddress cfg capcode) then
    match buildSaddr cfg (BitVec.ofNat 32 (flexAddress cfg capcode)) with
    | .ok saddr => .ok ((List.range 10).flatMap (flexFrameOps cfg saddr))
    | .error e => .error e
  else .error .range

/-! ## POCSAG -/

/-- `n` word slots: body words in order, idle words once the body is exhausted (R226, R227). -/
def fillSlots (idle : Word) : Nat → List Word → List Word
  | 0, _ => []
  | n + 1, [] => idle :: fillSlots idle n []
  | n + 1, w :: ws => w :: fillSlots idle n ws

/-- Step 6 (R227): while body words remain, a sync word and a group of 16 slots. `fuel` bounds the number of groups;
the number of body words is always enough. -/
def furtherGroups (idle : Word) : Nat → List Word → List Word
  | 0, _ => []
  | _ + 1, [] => []
  | fuel + 1, ws => pocsagSync :: fillSlots idle 16 ws ++ furtherGroups idle fuel (ws.drop 16)

/-- `fo` of R224: the frame of the address word. -/
def frameOffset (capcode : Word) : Nat := (capcode &&& 7#32).toNat

/-- The words after the preamble (R220 steps 4 to 6): sync, idle pairs, address word, first group's body slots, further
groups. -/
def pocsagWords (idle : Word) (fo : Nat) (addrWord : Word) (words : List Word) : List Word :=
  pocsagSync :: List.replicate (2 * fo) idle ++ [addrWord] ++ fillSlots idle (15 - 2 * fo) words
    ++ furtherGroups idle words.length (words.drop (15 - 2 * fo))

/-- The body words with the idle sentinel (R221). -/
def pocsagBody (cfg : Config) (mt : MsgType) (body : Text) : List Word := bodyEncoder cfg mt body ++ [cfg.pocsagIdle]

/-- POCSAG_BATCH (R220): the address word's checks come before the first micro-op (R223). -/
def pocsagBatch (cfg : Config) (capcode : Word) (mt : MsgType) (body : Text) : Except ErrorClass (List Instr) :=
  match buildPaddr cfg capcode (pocsagFunc cfg mt) with
  | .error e => .error e
  | .ok addrWord =>
    .ok (.qvec pidPreamble ::
      (pocsagWords cfg.pocsagIdle (frameOffset capcode) addrWord (pocsagBody cfg mt body)).map .qword)

/-- The micro-program CONSTRUCT selects (R283, R342). -/
def batchProgram (cfg : Config) (p : Protocol) (capcode : Word) (mt : MsgType) (body : Text) :
    Except ErrorClass (List Instr) :=
  match p with
  | .flex => flexBatch cfg capcode
  | .pocsag => pocsagBatch cfg capcode mt body

/-- A micro-program as micro-op words (R114). -/
def programWords (ops : List Instr) : List Word := ops.flatMap encode

end Sys2Proof.Machine
end

