-- ==== Sys2Proof/Machine/Flags.lean ====
section
/-! DEFINITION. The block has no condition codes (R37). Its status indications: the codes of phase, error and refusal, and
the STATUS and QLEN views (R32, R33, R35, R36, R112, R311). And the output symbols with their numeric form (R15, R257). -/

namespace Sys2Proof.Machine

/-- The phase codes (R32). -/
def Phase.code : Phase → BitVec 2
  | .idle => 0#2
  | .ready => 1#2
  | .drained => 2#2
  | .failed => 3#2

/-- The error codes (R311). -/
def ErrorClass.code : ErrorClass → BitVec 3
  | .configuration => 1#3
  | .range => 2#3
  | .unsupportedType => 3#3
  | .internalConsistency => 4#3
  | .capacity => 5#3

/-- S.err when there is no error (R311). -/
def noError : BitVec 3 := 0#3

/-- STATUS (R35, R285): [1:0] PHASE, [4:2] ERR, [31:5] 0. -/
def statusWord (s : State) : Word := (s.err.setWidth 32 <<< 2) ||| s.phase.code.setWidth 32

/-- QLEN (R36): the number of queued bits, as 32 bits. -/
def qlenWord (s : State) : Word := BitVec.ofNat 32 s.q.length

/-- SYM (R257): bit 0 to POS, bit 1 to NEG. -/
def sym (b : Bit) : Symbol := if b then .neg else .pos

/-- The sign of a symbol, +1 or -1 (R257). -/
def Symbol.sign : Symbol → Int
  | .pos => 1
  | .neg => -1

/-- SYMBOL_REPR, the numeric form of a symbol on the output interface (R15, I10): the two values the configuration holds. -/
def symbolRepr (cfg : Config) : Symbol → Rat
  | .pos => cfg.symbolReprPos
  | .neg => cfg.symbolReprNeg

/-- The numbers a response carries on the output interface, in order: those of its symbols (R15, R112, R290). -/
def outputNumbers (cfg : Config) : Response → List Rat
  | .symbols list => list.map (symbolRepr cfg)
  | .ok => []
  | .value _ => []
  | .status _ _ => []
  | .error _ => []
  | .eos => []
  | .refused _ => []

/-- The reason codes of a REFUSED response (R112). -/
def refuseCode : RefuseReason → Nat
  | .illegalOpcode => 1
  | .reservedBits => 2
  | .wrongPhase => 3

end Sys2Proof.Machine
end

