-- ==== Sys2Proof/Machine/Ops.lean ====
section
/-! DEFINITION. The shared operations over the state: returning a response, refusing, taking an error and returning from
one, appending to and draining the bit queue. -/

namespace Sys2Proof.Machine

/-- Return one response (R112, R280). -/
def respond (r : Response) (s : State) : State := { s with responses := s.responses ++ [r] }

/-- Refuse a command: REFUSED(reason) and no change of S (R281). -/
def refuse (reason : RefuseReason) (s : State) : State := respond (.refused reason) s

/-- Error entry, the block's trap (R318, R313): Q emptied, phase FAILED, err the class's code, response ERROR(code); the
CONSTRUCT transition it happens in is over, so the sequencer is idle. -/
def enterError (e : ErrorClass) (s : State) : State :=
  respond (.error e.code) { s with q := [], phase := .failed, err := e.code, seq := none }

/-- The way back from an error, and what RESET does to S (R282, R319, R340). -/
def resetFields (s : State) : State := { s with q := [], err := noError, phase := .idle }

/-- A pure command's response (R286): VALUE(v), or ERROR(code) with no state written. -/
def respondResult (r : Except ErrorClass Word) (s : State) : State :=
  match r with
  | .ok v => respond (.value v) s
  | .error e => respond (.error e.code) s

/-- Each logical bit becomes R queue bits in place (R251, R252, D14). -/
def replicateBits (rep : Nat) (bits : List Bit) : List Bit := bits.flatMap (List.replicate rep)

/-- Append logical bits to the queue with replication factor `rep`, or take CapacityError when the queue would exceed
QUEUE_CAPACITY (R251 to R253, R256). The check is on all the appended bits at once, which R256 calls equivalent to R251's
check before every QPush (log 16; `Laws/Queue.lean` proves it equal to that loop). -/
def appendBits (rep : Nat) (bits : List Bit) (s : State) : State :=
  if s.q.length + (replicateBits rep bits).length ≤ s.cfg.queueCapacity.val then
    { s with q := s.q ++ replicateBits rep bits }
  else enterError .capacity s

/-- DRAIN's symbols (R258). -/
def drained (n : Nat) (s : State) : List Symbol := (s.q.take n).map sym

/-- DRAIN's effect on the queue: bits leave from the front only (R73, R258). -/
def drain (n : Nat) (s : State) : State := { s with q := s.q.drop n }

/-- The sequencer starts a micro-program with replication factor `rep` (R31, R190, R220). -/
def startProgram (rep : Nat) (prog : List Word) (s : State) : State := { s with seq := some { rep := rep, prog := prog } }

/-- CONSTRUCT's success (R283): phase READY, err 0, response OK, the sequencer idle again. -/
def finishConstruct (s : State) : State :=
  respond .ok { s with phase := .ready, err := noError, seq := none }

end Sys2Proof.Machine
end

