-- ==== Sys2Proof/Machine/MicroOps.lean ====
section
/-! DEFINITION. The three micro-ops of 44_bit_queue.md. They run only as steps of a batch micro-program (R254): outside one,
that is issued by the host, they are refused ILLEGAL_OPCODE (R117; log 10). -/

namespace Sys2Proof.Machine

/-- QBIT (R251): R copies of one bit. -/
def execQbit (b : Bit) (s : State) : Host.Outcome State Fault Refusal :=
  match s.seq with
  | some sq => .next (appendBits sq.rep [b] s)
  | none => .next (refuse .illegalOpcode s)

/-- QWORD (R252): the 32 bits of a word, most significant first, each replicated in place. -/
def execQword (w : Word) (s : State) : Host.Outcome State Fault Refusal :=
  match s.seq with
  | some sq => .next (appendBits sq.rep (msbBits w) s)
  | none => .next (refuse .illegalOpcode s)

/-- QVEC (R253): a constant pattern in its own order; a reserved identifier names no pattern (R115, I13; log 11). -/
def execQvec (pid : BitVec 8) (s : State) : Host.Outcome State Fault Refusal :=
  match s.seq with
  | some sq =>
    match pattern s.cfg pid with
    | some bits => .next (appendBits sq.rep bits s)
    | none => .refused (.reservedPattern pid)
  | none => .next (refuse .illegalOpcode s)

end Sys2Proof.Machine
end

