-- ==== Sys2Proof/Machine/Sequencer.lean ====
section
/-! DEFINITION. The assembly sequencer (R31): it takes one micro-op at a time from its micro-program, in program order, and
runs to completion inside one CONSTRUCT transition. -/

namespace Sys2Proof.Machine

/-- The micro-ops, which are all the sequencer runs (R254); its decoder yields no other instruction. -/
def runMicro (i : Instr) (s : State) : Host.Outcome State Fault Refusal :=
  match i with
  | .qbit b => execQbit b s
  | .qword w => execQword w s
  | .qvec pid => execQvec pid s
  | .reset => .refused (.badMicroOp .notMicroOp)
  | .construct _ _ _ _ _ _ => .refused (.badMicroOp .notMicroOp)
  | .fetch _ => .refused (.badMicroOp .notMicroOp)
  | .readStatus => .refused (.badMicroOp .notMicroOp)
  | .addChecksum _ => .refused (.badMicroOp .notMicroOp)
  | .parity _ => .refused (.badMicroOp .notMicroOp)
  | .reverse32 _ => .refused (.badMicroOp .notMicroOp)
  | .fecEncode _ => .refused (.badMicroOp .notMicroOp)
  | .buildFiw _ _ _ _ _ => .refused (.badMicroOp .notMicroOp)
  | .buildBiw1 _ _ _ _ _ => .refused (.badMicroOp .notMicroOp)
  | .buildSaddr _ => .refused (.badMicroOp .notMicroOp)
  | .buildNvw _ _ _ _ => .refused (.badMicroOp .notMicroOp)
  | .buildPaddr _ _ => .refused (.badMicroOp .notMicroOp)

/-- One step of the sequencer at position `sq`: the next micro-op, or the end of the batch (R31, R198, R228). -/
def sequencerStep (sq : Sequencer) (s : State) : Host.Outcome State Fault Refusal :=
  match sq.prog with
  | [] => .next (finishConstruct s)
  | c :: rest =>
    match decodeMicro (c :: rest) with
    | .ok (i, prog') => runMicro i { s with seq := some { sq with prog := prog' } }
    | .error why => .refused (.badMicroOp why)

/-- Run the sequencer until it is idle, at most `fuel` steps. -/
def runSequencer : Nat → State → Host.Outcome State Fault Refusal
  | 0, s => .next s
  | fuel + 1, s =>
    match s.seq with
    | none => .next s
    | some sq =>
      match sequencerStep sq s with
      | .next s' => runSequencer fuel s'
      | .fault r => .fault r
      | .refused r => .refused r

/-- Run a micro-program to completion with replication factor `rep`: one step per micro-op and one for the end. -/
def runProgram (rep : Nat) (ops : List Instr) (s : State) : Host.Outcome State Fault Refusal :=
  runSequencer (ops.length + 1) (startProgram rep (programWords ops) s)

end Sys2Proof.Machine
end

