-- ==== Sys2Proof/Machine/HostCommands.lean ====
section
/-! DEFINITION. The life-cycle commands of 45_host_commands.md: RESET, CONSTRUCT, FETCH, READ_STATUS. -/

namespace Sys2Proof.Machine

/-- RESET (R282), in any phase. -/
def execReset (s : State) : Host.Outcome State Fault Refusal := .next (respond .ok (resetFields s))

/-- CONSTRUCT (R283): refused WRONG_PHASE unless IDLE (R348), then the checks of R314 in their order, then the whole batch
as one atomic effect (R79, R313). -/
def execConstruct (protocol msgType : BitVec 8) (baudRate symbolRate capcode : Word) (body : Text) (s : State) :
    Host.Outcome State Fault Refusal :=
  if s.phase = .idle then
    match checkArguments protocol msgType baudRate symbolRate with
    | .error e => .next (enterError e s)
    | .ok (p, mt, rep) =>
      match batchProgram s.cfg p capcode mt body with
      | .error e => .next (enterError e s)
      | .ok ops => runProgram rep ops s
  else .next (refuse .wrongPhase s)

/-- FETCH (R284): EOS once the queue is empty, sticky (R37); refused WRONG_PHASE in IDLE and FAILED (R347). -/
def execFetch (maxCount : Word) (s : State) : Host.Outcome State Fault Refusal :=
  match s.phase with
  | .drained => .next (respond .eos s)
  | .ready =>
    if s.q = [] then .next (respond .eos { s with phase := .drained })
    else .next (respond (.symbols (drained maxCount.toNat s)) (drain maxCount.toNat s))
  | .idle => .next (refuse .wrongPhase s)
  | .failed => .next (refuse .wrongPhase s)

/-- READ_STATUS (R285), in any phase. -/
def execReadStatus (s : State) : Host.Outcome State Fault Refusal := .next (respond (.status (statusWord s) (qlenWord s)) s)

end Sys2Proof.Machine
end

