-- ==== Sys2Proof/Machine/PureCommands.lean ====
section
/-! DEFINITION. The pure commands (R286): one response, in any phase, and no other change of state. -/

namespace Sys2Proof.Machine

/-- ADD_CHECKSUM (R140, R286). -/
def execAddChecksum (w : Word) (s : State) : Host.Outcome State Fault Refusal := .next (respond (.value (addChecksum w)) s)

/-- PARITY (R141, R286). -/
def execParity (x : Word) (s : State) : Host.Outcome State Fault Refusal := .next (respond (.value (parity x)) s)

/-- REVERSE32 (R142, R286). -/
def execReverse32 (x : Word) (s : State) : Host.Outcome State Fault Refusal := .next (respond (.value (reverse32 x)) s)

/-- FEC_ENCODE (R143, R286). -/
def execFecEncode (x : Word) (s : State) : Host.Outcome State Fault Refusal := .next (respond (.value (fecEncode s.cfg x)) s)

/-- BUILD_FIW (R161, R286). -/
def execBuildFiw (cycle : BitVec 4) (frame : BitVec 7) (roaming rept : BitVec 1) (t : BitVec 4) (s : State) :
    Host.Outcome State Fault Refusal :=
  .next (respond (.value (buildFiw s.cfg cycle frame roaming rept t)) s)

/-- BUILD_BIW1 (R163, R286). -/
def execBuildBiw1 (priority : BitVec 4) (a : BitVec 2) (vectorStart : BitVec 6) (carryOn : BitVec 2) (collapse : BitVec 3)
    (s : State) : Host.Outcome State Fault Refusal :=
  .next (respond (.value (buildBiw1 s.cfg priority a vectorStart carryOn collapse)) s)

/-- BUILD_SADDR (R164, R286): VALUE, or ERROR(2) out of range. -/
def execBuildSaddr (address : Word) (s : State) : Host.Outcome State Fault Refusal :=
  .next (respondResult (buildSaddr s.cfg address) s)

/-- BUILD_NVW (R165, R286). -/
def execBuildNvw (vectorType : BitVec 3) (messageStart : BitVec 7) (nWords : BitVec 3) (cksum : BitVec 4) (s : State) :
    Host.Outcome State Fault Refusal :=
  .next (respond (.value (buildNvw s.cfg vectorType messageStart nWords cksum)) s)

/-- BUILD_PADDR (R166, R286): VALUE, ERROR(2) out of range or ERROR(4) when the FEC check fails. -/
def execBuildPaddr (capcode : Word) (func : BitVec 2) (s : State) : Host.Outcome State Fault Refusal :=
  .next (respondResult (buildPaddr s.cfg capcode func) s)

end Sys2Proof.Machine
end

