-- ==== Sys2Proof/Machine/Dispatch.lean ====
section
/-! DEFINITION. One arm per constructor of Instr, each a direct call of its meaning. -/

namespace Sys2Proof.Machine

def exec (i : Instr) (s : State) : Host.Outcome State Fault Refusal :=
  match i with
  | .reset => Sys2Proof.Machine.execReset s
  | .construct protocol msgType baudRate symbolRate capcode body => Sys2Proof.Machine.execConstruct protocol msgType baudRate symbolRate capcode body s
  | .fetch maxCount => Sys2Proof.Machine.execFetch maxCount s
  | .readStatus => Sys2Proof.Machine.execReadStatus s
  | .addChecksum w => Sys2Proof.Machine.execAddChecksum w s
  | .parity x => Sys2Proof.Machine.execParity x s
  | .reverse32 x => Sys2Proof.Machine.execReverse32 x s
  | .fecEncode x => Sys2Proof.Machine.execFecEncode x s
  | .buildFiw cycle frame roaming rept t => Sys2Proof.Machine.execBuildFiw cycle frame roaming rept t s
  | .buildBiw1 priority a vectorStart carryOn collapse => Sys2Proof.Machine.execBuildBiw1 priority a vectorStart carryOn collapse s
  | .buildSaddr address => Sys2Proof.Machine.execBuildSaddr address s
  | .buildNvw vectorType messageStart nWords cksum => Sys2Proof.Machine.execBuildNvw vectorType messageStart nWords cksum s
  | .buildPaddr capcode func => Sys2Proof.Machine.execBuildPaddr capcode func s
  | .qbit b => Sys2Proof.Machine.execQbit b s
  | .qword w => Sys2Proof.Machine.execQword w s
  | .qvec pid => Sys2Proof.Machine.execQvec pid s

end Sys2Proof.Machine
end

