-- ==== Sys2Proof/Machine/Fetch.lean ====
section
/-! DEFINITION. How the block comes by its next instruction: from the sequencer's micro-program inside a CONSTRUCT transition
(R31), else from the command port (R280, R116). -/

namespace Sys2Proof.Machine

/-- The command port takes the oldest transaction, decodes it (R116) and performs it or refuses it; with none waiting the
block does nothing (R328; log 9). -/
def commandStep (s : State) : Host.Outcome State Fault Refusal :=
  match s.commands with
  | [] => .next s
  | tx :: rest =>
    match decodeHost tx with
    | .command i => exec i { s with commands := rest }
    | .refuse reason => .next (refuse reason { s with commands := rest })
    | .malformed => .refused .malformedTransaction

/-- One step: inside a CONSTRUCT transition no command is accepted (R280), the sequencer goes on; otherwise the command
port. -/
def fetchAndRun (s : State) : Host.Outcome State Fault Refusal :=
  match s.seq with
  | some sq => sequencerStep sq s
  | none => commandStep s

/-- Put a micro-op's words in front of the sequencer's micro-program. An idle sequencer is set running with R = 1, which is
the model's choice (log 13). -/
def placeMicro (words : List Word) (s : State) : State :=
  match s.seq with
  | some sq => { s with seq := some { sq with prog := words ++ sq.prog } }
  | none => { s with seq := some { rep := 1, prog := words } }

/-- Put a command in front of the command port's waiting transactions; no CONSTRUCT transition is in progress then. -/
def placeCommand (words : List Word) (s : State) : State :=
  { s with seq := none, commands := { words := words, body := [] } :: s.commands }

/-- Put an instruction's words, numbered as the opcode table numbers them, where the next step fetches it. -/
def placeTableWord (s : State) (nbits w : Nat) : State :=
  let words := tableWords nbits w
  if isMicroWord (words.headD 0#32) then placeMicro words s else placeCommand words s

end Sys2Proof.Machine
end

