-- ==== Sys2Proof/Machine/Step.lean ====
section
/-! DEFINITION. The step of the machine: the next instruction is fetched and run (`Machine/Fetch.lean`). -/

namespace Sys2Proof.Machine

/-- One step: one host command as one atomic transition (R5, R280), or, inside a CONSTRUCT transition, one micro-op (R31). -/
def step (s : State) : Host.Outcome State Fault Refusal := fetchAndRun s

/-- `s` with an instruction's words stored where `step` fetches its next instruction (log 13). -/
def State.withFetchWord (s : State) (nbits w : Nat) : State := placeTableWord s nbits w

end Sys2Proof.Machine
end

