-- ==== Sys2Proof/Safety.lean ====
section
/-! DEFINITION. The terms claims about the machine use: consistent states, safe steps, what stands where in a bit stream, and
runs of several commands. -/

namespace Sys2Proof.Machine

/-- A state between commands that obeys what 10_state.md says of its fields: the queue within its capacity (R34, R81); bits
queued only in READY (R283, R284, R313); `err` 0 exactly outside FAILED (R32, R33) and never 6 or 7 (R33, R311); no CONSTRUCT
transition in progress (R79). -/
structure State.Consistent (s : State) : Prop where
  bounded     : s.q.length ≤ s.cfg.queueCapacity.val
  readyOnly   : s.phase ≠ .ready → s.q = []
  failedError : s.err = 0#3 ↔ s.phase ≠ .failed
  knownError  : s.err.toNat ≤ 5
  boundary    : s.seq = none

/-- The queue is within its capacity (R34, R81), also inside a CONSTRUCT transition. -/
def State.Bounded (s : State) : Prop := s.q.length ≤ s.cfg.queueCapacity.val

/-- A step is safe when it answers a next state: the model neither faults nor refuses. -/
def SafeStep (s : State) : Prop := ∃ t, step s = .next t

/-- What an error in CONSTRUCT leaves (R318). -/
def errorState (code : BitVec 3) (s : State) : State :=
  { s with q := [], phase := .failed, err := code, seq := none, responses := s.responses ++ [.error code] }

/-- Contract (e) of R143: the FEC function keeps the data bits in [31:11]. -/
def FecSystematic (cfg : Config) : Prop := ∀ d : BitVec 21, (fecParam cfg d).extractLsb' 11 21 = d

/-- Contracts (c) and (d) of R143: injective over the data bits, and bit 0 is the parity bit of the other 31 bits, of one sense
for all codewords. The configuration is not held to them: a function that breaks them only adds behaviours (log 2). -/
structure FecContract (cfg : Config) : Prop where
  injective : ∀ d e : BitVec 21, fecParam cfg d = fecParam cfg e → d = e
  parityBit : ∃ odd : Bool, ∀ d : BitVec 21,
    (fecParam cfg d).getLsbD 0 =
      (odd ^^ decide (((List.range 31).filter fun k => (fecParam cfg d).getLsbD (k + 1)).length % 2 = 1))

/-- What decision D16 keeps exact of SYMBOL_REPR: POS is positive and NEG negative, the magnitudes open. The configuration is
not held to it: a representation that breaks it only adds behaviours (log 14). -/
structure SymbolReprContract (cfg : Config) : Prop where
  pos : 0 < symbolRepr cfg .pos
  neg : symbolRepr cfg .neg < 0

/-- The logical bits a micro-op appends (R76, R255). -/
def microBits (cfg : Config) : Instr → List Bit
  | .qbit b => [b]
  | .qword w => msbBits w
  | .qvec pid => (pattern cfg pid).getD []
  | .reset => []
  | .construct _ _ _ _ _ _ => []
  | .fetch _ => []
  | .readStatus => []
  | .addChecksum _ => []
  | .parity _ => []
  | .reverse32 _ => []
  | .fecEncode _ => []
  | .buildFiw _ _ _ _ _ => []
  | .buildBiw1 _ _ _ _ _ => []
  | .buildSaddr _ => []
  | .buildNvw _ _ _ _ => []
  | .buildPaddr _ _ => []

/-- The logical bits of a micro-program (R255). -/
def programBits (cfg : Config) (ops : List Instr) : List Bit := ops.flatMap (microBits cfg)

/-- In a queue whose logical bits are replicated `rep` times, the logical bits from position `pos` are `bits` (R200, R231,
R255: queue positions are logical positions times R). -/
def BitsAt (q : List Bit) (rep pos : Nat) (bits : List Bit) : Prop :=
  ∀ k, k < bits.length → ∀ j, j < rep → q[rep * (pos + k) + j]? = bits[k]?

/-- In such a queue the 32 logical bits from position `pos` are the word `w`, bit 31 first (R74). -/
def WordAt (q : List Bit) (rep pos : Nat) (w : Word) : Prop :=
  ∀ k, k < 32 → ∀ j, j < rep → q[rep * (pos + k) + j]? = some (w.getLsbD (31 - k))

/-- The symbols of a sequence of responses, in order (R290). -/
def streamOf (rs : List Response) : List Symbol :=
  rs.flatMap fun r =>
    match r with
    | .symbols l => l
    | _ => []

/-- Run instructions one after another, stopping where one does not answer a next state. -/
def runInstrs : List Instr → State → Host.Outcome State Fault Refusal
  | [], s => .next s
  | i :: is, s =>
    match exec i s with
    | .next t => runInstrs is t
    | .fault r => .fault r
    | .refused r => .refused r

end Sys2Proof.Machine
end

