-- ==== Sys2Proof/Laws/State.lean ====
section
/-! SUPPORT. What each shared operation does to each field of the state, so that later proofs do not unfold them. -/

namespace Sys2Proof.Machine

section Respond
variable (r : Response) (s : State)
@[simp] theorem respond_phase : (respond r s).phase = s.phase := rfl
@[simp] theorem respond_err : (respond r s).err = s.err := rfl
@[simp] theorem respond_q : (respond r s).q = s.q := rfl
@[simp] theorem respond_seq : (respond r s).seq = s.seq := rfl
@[simp] theorem respond_commands : (respond r s).commands = s.commands := rfl
@[simp] theorem respond_responses : (respond r s).responses = s.responses ++ [r] := rfl
@[simp] theorem respond_cfg : (respond r s).cfg = s.cfg := rfl
end Respond

section Refuse
variable (why : RefuseReason) (s : State)
@[simp] theorem refuse_phase : (refuse why s).phase = s.phase := rfl
@[simp] theorem refuse_err : (refuse why s).err = s.err := rfl
@[simp] theorem refuse_q : (refuse why s).q = s.q := rfl
@[simp] theorem refuse_seq : (refuse why s).seq = s.seq := rfl
@[simp] theorem refuse_commands : (refuse why s).commands = s.commands := rfl
@[simp] theorem refuse_responses : (refuse why s).responses = s.responses ++ [.refused why] := rfl
@[simp] theorem refuse_cfg : (refuse why s).cfg = s.cfg := rfl
end Refuse

section EnterError
variable (e : ErrorClass) (s : State)
@[simp] theorem enterError_phase : (enterError e s).phase = .failed := rfl
@[simp] theorem enterError_err : (enterError e s).err = e.code := rfl
@[simp] theorem enterError_q : (enterError e s).q = [] := rfl
@[simp] theorem enterError_seq : (enterError e s).seq = none := rfl
@[simp] theorem enterError_commands : (enterError e s).commands = s.commands := rfl
@[simp] theorem enterError_responses : (enterError e s).responses = s.responses ++ [.error e.code] := rfl
@[simp] theorem enterError_cfg : (enterError e s).cfg = s.cfg := rfl

/-- Error entry is the state R318 describes. -/
theorem enterError_eq_errorState : enterError e s = errorState e.code s := rfl

/-- Error entry does not depend on the queue or the sequencer position it happens at (R318: "precise"). -/
@[simp] theorem enterError_queue_seq (q : List Bit) (sq : Option Sequencer) :
    enterError e { s with q := q, seq := sq } = enterError e s := rfl

@[simp] theorem enterError_startProgram (rep : Nat) (prog : List Word) :
    enterError e (startProgram rep prog s) = enterError e s := rfl
end EnterError

section ResetFields
variable (s : State)
@[simp] theorem resetFields_phase : (resetFields s).phase = .idle := rfl
@[simp] theorem resetFields_err : (resetFields s).err = 0#3 := rfl
@[simp] theorem resetFields_q : (resetFields s).q = [] := rfl
@[simp] theorem resetFields_seq : (resetFields s).seq = s.seq := rfl
@[simp] theorem resetFields_commands : (resetFields s).commands = s.commands := rfl
@[simp] theorem resetFields_responses : (resetFields s).responses = s.responses := rfl
@[simp] theorem resetFields_cfg : (resetFields s).cfg = s.cfg := rfl
end ResetFields

section Drain
variable (n : Nat) (s : State)
@[simp] theorem drain_phase : (drain n s).phase = s.phase := rfl
@[simp] theorem drain_err : (drain n s).err = s.err := rfl
@[simp] theorem drain_q : (drain n s).q = s.q.drop n := rfl
@[simp] theorem drain_seq : (drain n s).seq = s.seq := rfl
@[simp] theorem drain_commands : (drain n s).commands = s.commands := rfl
@[simp] theorem drain_responses : (drain n s).responses = s.responses := rfl
@[simp] theorem drain_cfg : (drain n s).cfg = s.cfg := rfl
end Drain

section StartProgram
variable (rep : Nat) (prog : List Word) (s : State)
@[simp] theorem startProgram_phase : (startProgram rep prog s).phase = s.phase := rfl
@[simp] theorem startProgram_err : (startProgram rep prog s).err = s.err := rfl
@[simp] theorem startProgram_q : (startProgram rep prog s).q = s.q := rfl
@[simp] theorem startProgram_seq : (startProgram rep prog s).seq = some { rep := rep, prog := prog } := rfl
@[simp] theorem startProgram_commands : (startProgram rep prog s).commands = s.commands := rfl
@[simp] theorem startProgram_responses : (startProgram rep prog s).responses = s.responses := rfl
@[simp] theorem startProgram_cfg : (startProgram rep prog s).cfg = s.cfg := rfl
end StartProgram

section FinishConstruct
variable (s : State)
@[simp] theorem finishConstruct_phase : (finishConstruct s).phase = .ready := rfl
@[simp] theorem finishConstruct_err : (finishConstruct s).err = 0#3 := rfl
@[simp] theorem finishConstruct_q : (finishConstruct s).q = s.q := rfl
@[simp] theorem finishConstruct_seq : (finishConstruct s).seq = none := rfl
@[simp] theorem finishConstruct_commands : (finishConstruct s).commands = s.commands := rfl
@[simp] theorem finishConstruct_responses : (finishConstruct s).responses = s.responses ++ [.ok] := rfl
@[simp] theorem finishConstruct_cfg : (finishConstruct s).cfg = s.cfg := rfl

@[simp] theorem finishConstruct_startProgram (rep : Nat) (prog : List Word) :
    finishConstruct (startProgram rep prog s) = finishConstruct s := rfl
end FinishConstruct

section Output
variable (cfg : Config)
@[simp] theorem symbolRepr_pos : symbolRepr cfg .pos = cfg.symbolReprPos := rfl
@[simp] theorem symbolRepr_neg : symbolRepr cfg .neg = cfg.symbolReprNeg := rfl
@[simp] theorem outputNumbers_symbols (list : List Symbol) :
    outputNumbers cfg (.symbols list) = list.map (symbolRepr cfg) := rfl

/-- The number that stands for a queue bit (R15, R257). -/
@[simp] theorem symbolRepr_sym (b : Bit) :
    symbolRepr cfg (sym b) = if b then cfg.symbolReprNeg else cfg.symbolReprPos := by cases b <;> rfl

/-- The same, as the map over a queue that the simplifier fuses to a composition. -/
@[simp] theorem symbolRepr_comp_sym :
    symbolRepr cfg ∘ sym = fun b => if b then cfg.symbolReprNeg else cfg.symbolReprPos := funext (symbolRepr_sym cfg)

/-- Under D16's contract the number of a symbol has the symbol's sign. -/
theorem symbolRepr_sign {cfg : Config} (h : SymbolReprContract cfg) (x : Symbol) :
    0 < symbolRepr cfg x ↔ x.sign = 1 := by
  cases x with
  | pos => exact iff_of_true h.pos rfl
  | neg => exact iff_of_false (not_lt_of_gt h.neg) (by decide)
end Output

/-- A pure command's response writes nothing but the response (R286). -/
theorem respondResult_eq (r : Except ErrorClass Word) (s : State) :
    ∃ a, respondResult r s = respond a s ∧ ((∃ v, a = .value v) ∨ ∃ e : ErrorClass, a = .error e.code) := by
  cases r with
  | ok v => exact ⟨_, rfl, .inl ⟨v, rfl⟩⟩
  | error e => exact ⟨_, rfl, .inr ⟨e, rfl⟩⟩

end Sys2Proof.Machine
end

