-- ==== Sys2Proof/Laws/Queue.lean ====
section
/-! SUPPORT. The bit queue: replication (R251, R255), appending (R251 to R253, R256) and its agreement with the loop of
pushes that R251's pseudocode writes. -/

namespace Sys2Proof.Machine

@[simp] theorem replicateBits_nil (rep : Nat) : replicateBits rep [] = [] := rfl

@[simp] theorem replicateBits_cons (rep : Nat) (b : Bit) (bits : List Bit) :
    replicateBits rep (b :: bits) = List.replicate rep b ++ replicateBits rep bits := rfl

@[simp] theorem replicateBits_append (rep : Nat) (xs ys : List Bit) :
    replicateBits rep (xs ++ ys) = replicateBits rep xs ++ replicateBits rep ys := by
  simp [replicateBits]

/-- The length law of R255. -/
@[simp] theorem replicateBits_length (rep : Nat) (bits : List Bit) :
    (replicateBits rep bits).length = rep * bits.length := by
  induction bits with
  | nil => simp
  | cons b bits ih => simp [ih, Nat.mul_add, Nat.add_comm]

/-- Every R-th queue bit, and each of the R copies, is the logical bit (R255). -/
theorem replicateBits_getElem? (rep : Nat) (bits : List Bit) (k j : Nat) (hk : k < bits.length) (hj : j < rep) :
    (replicateBits rep bits)[rep * k + j]? = bits[k]? := by
  induction bits generalizing k with
  | nil => simp at hk
  | cons b bits ih =>
    cases k with
    | zero =>
      rw [replicateBits_cons, List.getElem?_append_left (by simpa using hj)]
      simp [hj]
    | succ k =>
      have hle : (List.replicate rep b).length ≤ rep * (k + 1) + j := by
        simp [Nat.mul_add]; omega
      rw [replicateBits_cons, List.getElem?_append_right hle]
      have : rep * (k + 1) + j - (List.replicate rep b).length = rep * k + j := by
        simp [Nat.mul_add]; omega
      rw [this, List.getElem?_cons_succ]
      exact ih k (by simpa using hk)

@[simp] theorem msbBits_length (w : Word) : (msbBits w).length = 32 := by simp [msbBits]

theorem msbBits_getElem? (w : Word) (k : Nat) (hk : k < 32) : (msbBits w)[k]? = some (w.getLsbD (31 - k)) := by
  simp [msbBits, hk]

theorem appendBits_of_room {rep : Nat} {bits : List Bit} {s : State}
    (h : s.q.length + rep * bits.length ≤ s.cfg.queueCapacity.val) :
    appendBits rep bits s = { s with q := s.q ++ replicateBits rep bits } := by
  simp [appendBits, h]

theorem appendBits_of_full {rep : Nat} {bits : List Bit} {s : State}
    (h : s.cfg.queueCapacity.val < s.q.length + rep * bits.length) :
    appendBits rep bits s = enterError .capacity s := by
  simp [appendBits, Nat.not_le.mpr h]

/-- Everything an append can do: it adds the replicated bits at the back, or takes CapacityError (R256). -/
theorem appendBits_cases (rep : Nat) (bits : List Bit) (s : State) :
    (s.q.length + rep * bits.length ≤ s.cfg.queueCapacity.val ∧
        appendBits rep bits s = { s with q := s.q ++ replicateBits rep bits }) ∨
      (s.cfg.queueCapacity.val < s.q.length + rep * bits.length ∧ appendBits rep bits s = enterError .capacity s) := by
  rcases Nat.lt_or_ge s.cfg.queueCapacity.val (s.q.length + rep * bits.length) with h | h
  · exact .inr ⟨h, appendBits_of_full h⟩
  · exact .inl ⟨h, appendBits_of_room h⟩

/-- R251's pseudocode, one QPush at a time: `none` is the raise of CapacityError. -/
def pushLoop (capacity : Nat) : List Bit → List Bit → Option (List Bit)
  | q, [] => some q
  | q, b :: bs => if q.length = capacity then none else pushLoop capacity (q ++ [b]) bs

/-- From a queue within its capacity the loop of pushes ends in the whole append or raises (R256's "Equivalently"). -/
theorem pushLoop_eq (capacity : Nat) (q bs : List Bit) (h : q.length ≤ capacity) :
    pushLoop capacity q bs = if q.length + bs.length ≤ capacity then some (q ++ bs) else none := by
  induction bs generalizing q with
  | nil => simp [pushLoop, h]
  | cons b bs ih =>
    by_cases hq : q.length = capacity
    · simp [pushLoop, hq]
    · have h' : (q ++ [b]).length ≤ capacity := by simp; omega
      simp [pushLoop, hq, ih _ h', Nat.add_assoc, Nat.add_comm 1]

/-- `appendBits` is R251's loop of pushes over the replicated bits, with error entry at its raise. -/
theorem appendBits_eq_pushLoop (rep : Nat) (bits : List Bit) (s : State) (h : s.Bounded) :
    appendBits rep bits s =
      match pushLoop s.cfg.queueCapacity.val s.q (replicateBits rep bits) with
      | some q => { s with q := q }
      | none => enterError .capacity s := by
  rw [pushLoop_eq _ _ _ h]
  by_cases hq : s.q.length + rep * bits.length ≤ s.cfg.queueCapacity.val <;> simp [appendBits, hq]

end Sys2Proof.Machine
end

