-- ==== Sys2Proof/Laws/Sequencer.lean ====
section
/-! SUPPORT. What the sequencer does with a whole micro-program: the one lemma claims about CONSTRUCT cite. -/

namespace Sys2Proof.Machine

/-- The sequencer's decoder reads back each micro-op the encoder wrote, and leaves the rest of the program (R114, R115). -/
theorem decodeMicro_encode (i : Instr) (rest : List Word) (hm : i.isMicro = true) (hw : i.wf = true) :
    decodeMicro (encode i ++ rest) = .ok (i, rest) := by
  cases i <;> simp [Instr.isMicro] at hm
  case qbit b => cases b <;> simp [encode, decodeMicro, fieldAt]
  case qword w => simp [encode, decodeMicro]
  case qvec pid =>
    have h0 : (0x82#32 ||| fieldAt 8 pid).extractLsb' 0 8 = 0x82#8 := by
      ext k hk; interval_cases k <;> simp [fieldAt]
    have h1 : (0x82#32 ||| fieldAt 8 pid).extractLsb' 8 8 = pid := by
      ext k hk; interval_cases k <;> simp [fieldAt]
    have h2 : (0x82#32 ||| fieldAt 8 pid).extractLsb' 16 16 = 0#16 := by
      ext k hk; interval_cases k <;> simp [fieldAt]
    have hp : pid.toNat < 4 := by simpa [Instr.wf] using hw
    simp only [encode, List.cons_append, List.nil_append, decodeMicro, h0, h1, h2, hp]
    rfl

/-- Every well-formed micro-op runs as one append of its logical bits (R251 to R253). -/
theorem runMicro_eq (i : Instr) (s : State) (sq : Sequencer) (hs : s.seq = some sq) (hm : i.isMicro = true) (hw : i.wf = true) :
    runMicro i s = .next (appendBits sq.rep (microBits s.cfg i) s) := by
  cases i <;> simp [Instr.isMicro] at hm
  case qbit b => simp [runMicro, execQbit, hs, microBits]
  case qword w => simp [runMicro, execQword, hs, microBits]
  case qvec pid =>
    have hp : pid.toNat < 4 := by simpa [Instr.wf] using hw
    simp only [runMicro, execQvec, hs, microBits, pattern]
    interval_cases pid.toNat <;> simp

/-- One sequencer step on an encoded micro-op runs it and moves past its words (R31). -/
theorem sequencerStep_encode (i : Instr) (rest : List Word) (rep : Nat) (s : State) (hm : i.isMicro = true)
    (hw : i.wf = true) :
    sequencerStep { rep := rep, prog := encode i ++ rest } s =
      .next (appendBits rep (microBits s.cfg i) (startProgram rep rest s)) := by
  have hd := decodeMicro_encode i rest hm hw
  have hr := runMicro_eq i (startProgram rep rest s) { rep := rep, prog := rest } rfl hm hw
  cases hc : encode i ++ rest with
  | nil => cases i <;> simp [encode] at hc
  | cons c cs =>
    rw [hc] at hd
    simpa [sequencerStep, hd, startProgram] using hr

theorem runSequencer_idle (fuel : Nat) (s : State) (h : s.seq = none) : runSequencer fuel s = .next s := by
  cases fuel <;> simp [runSequencer, h]

/-- A micro-program from a queue within its capacity: the whole batch is appended and CONSTRUCT succeeds, or CapacityError
is taken, exactly when the batch would not fit (R255, R256, R313). -/
theorem runProgram_eq (rep : Nat) (ops : List Instr) (s : State) (hb : s.Bounded)
    (hops : ∀ i ∈ ops, i.isMicro = true ∧ i.wf = true) :
    runProgram rep ops s =
      if s.q.length + rep * (programBits s.cfg ops).length ≤ s.cfg.queueCapacity.val then
        .next (finishConstruct { s with q := s.q ++ replicateBits rep (programBits s.cfg ops) })
      else .next (enterError .capacity s) := by
  unfold runProgram
  induction ops generalizing s with
  | nil =>
    have : s.q.length ≤ s.cfg.queueCapacity.val := hb
    simp [programBits, programWords, runSequencer, sequencerStep, startProgram, this, finishConstruct, respond]
  | cons i is ih =>
    obtain ⟨hm, hw⟩ := hops i (by simp)
    have his : ∀ k ∈ is, k.isMicro = true ∧ k.wf = true := fun k hk => hops k (by simp [hk])
    have hstep : runSequencer ((i :: is).length + 1) (startProgram rep (programWords (i :: is)) s) =
        runSequencer (is.length + 1) (appendBits rep (microBits s.cfg i) (startProgram rep (programWords is) s)) := by
      have h := sequencerStep_encode i (programWords is) rep (startProgram rep (programWords (i :: is)) s) hm hw
      have hp : programWords (i :: is) = encode i ++ programWords is := by simp [programWords]
      rw [hp] at h ⊢
      rw [List.length_cons, runSequencer]
      simp only [startProgram_seq, startProgram_cfg] at h ⊢
      rw [h]
      rfl
    rw [hstep]
    rcases appendBits_cases rep (microBits s.cfg i) (startProgram rep (programWords is) s) with ⟨hroom, ha⟩ | ⟨hfull, ha⟩
    · rw [ha]
      simp only [startProgram_q, startProgram_cfg] at hroom ⊢
      have h := ih { s with q := s.q ++ replicateBits rep (microBits s.cfg i) }
        (by simpa [State.Bounded] using hroom) his
      have hbits : programBits s.cfg (i :: is) = microBits s.cfg i ++ programBits s.cfg is := by simp [programBits]
      simpa [hbits, startProgram, Nat.mul_add, Nat.add_assoc, enterError, respond] using h
    · rw [ha, enterError_startProgram, runSequencer_idle _ _ (enterError_seq _ _)]
      simp only [startProgram_q, startProgram_cfg] at hfull
      have hbits : programBits s.cfg (i :: is) = microBits s.cfg i ++ programBits s.cfg is := by simp [programBits]
      have hno : ¬ s.q.length + rep * (programBits s.cfg (i :: is)).length ≤ s.cfg.queueCapacity.val := by
        rw [hbits, List.length_append, Nat.mul_add]
        omega
      rw [if_neg hno]

end Sys2Proof.Machine
end

