-- ==== Sys2Proof/Laws/Exec.lean ====
section
/-! SUPPORT. What each command can do, said once: one lemma per meaning with several outcomes, and one for a step between
commands. -/

namespace Sys2Proof.Machine

/-! ## The batch micro-programs hold well-formed micro-ops only -/

theorem qword_ok (w : Word) : (Instr.qword w).isMicro = true ∧ (Instr.qword w).wf = true := ⟨rfl, rfl⟩

theorem flexBlockOps_ok (cfg : Config) (saddr : Word) (p : FlexBlock) :
    ∀ i ∈ flexBlockOps cfg saddr p, i.isMicro = true ∧ i.wf = true := by
  intro i hi
  simp only [flexBlockOps, qrepv, List.mem_append, List.mem_cons, List.not_mem_nil, or_false, List.mem_replicate] at hi
  rcases hi with (rfl | rfl | rfl | rfl) | ⟨-, rfl⟩ <;> exact ⟨rfl, rfl⟩

theorem flexHeaderOps_ok (cfg : Config) (f : Nat) : ∀ i ∈ flexHeaderOps cfg f, i.isMicro = true ∧ i.wf = true := by
  intro i hi
  simp only [flexHeaderOps, List.mem_cons, List.not_mem_nil, or_false] at hi
  rcases hi with rfl | rfl | rfl | rfl | rfl | rfl <;> exact ⟨rfl, rfl⟩

theorem flexFrameOps_ok (cfg : Config) (saddr : Word) (f : Nat) :
    ∀ i ∈ flexFrameOps cfg saddr f, i.isMicro = true ∧ i.wf = true := by
  intro i hi
  rcases List.mem_append.mp hi with h | h
  · exact flexHeaderOps_ok cfg f i h
  · obtain ⟨b, -, hb⟩ := List.mem_flatMap.mp h
    exact flexBlockOps_ok cfg saddr _ i hb

theorem flexBatch_ok {cfg : Config} {capcode : Word} {ops : List Instr} (h : flexBatch cfg capcode = .ok ops) :
    ∀ i ∈ ops, i.isMicro = true ∧ i.wf = true := by
  unfold flexBatch at h
  split at h
  · split at h
    · obtain rfl := Except.ok.inj h
      intro i hi
      obtain ⟨f, -, hf⟩ := List.mem_flatMap.mp hi
      exact flexFrameOps_ok _ _ f i hf
    · cases h
  · cases h

theorem pocsagBatch_ok {cfg : Config} {capcode : Word} {mt : MsgType} {body : Text} {ops : List Instr}
    (h : pocsagBatch cfg capcode mt body = .ok ops) : ∀ i ∈ ops, i.isMicro = true ∧ i.wf = true := by
  unfold pocsagBatch at h
  split at h
  · cases h
  · obtain rfl := Except.ok.inj h
    intro i hi
    rcases List.mem_cons.mp hi with rfl | hi
    · exact ⟨rfl, rfl⟩
    · obtain ⟨w, -, rfl⟩ := List.mem_map.mp hi
      exact qword_ok w

theorem batchProgram_ok {cfg : Config} {p : Protocol} {capcode : Word} {mt : MsgType} {body : Text} {ops : List Instr}
    (h : batchProgram cfg p capcode mt body = .ok ops) : ∀ i ∈ ops, i.isMicro = true ∧ i.wf = true := by
  cases p with
  | flex => exact flexBatch_ok h
  | pocsag => exact pocsagBatch_ok h

/-! ## The errors of CONSTRUCT's checks (R314) -/

/-- The argument checks raise ConfigurationError or UnsupportedTypeError only. -/
theorem checkArguments_error {protocol msgType : BitVec 8} {baudRate symbolRate : Word} {e : ErrorClass}
    (h : checkArguments protocol msgType baudRate symbolRate = .error e) : e = .configuration ∨ e = .unsupportedType := by
  unfold checkArguments at h
  repeat' split at h
  all_goals first | cases h; simp | cases h

theorem buildSaddr_error {cfg : Config} {address : Word} {e : ErrorClass} (h : buildSaddr cfg address = .error e) :
    e = .range := by
  unfold buildSaddr at h
  split at h <;> cases h
  rfl

theorem buildPaddr_error {cfg : Config} {capcode : Word} {func : BitVec 2} {e : ErrorClass}
    (h : buildPaddr cfg capcode func = .error e) : e = .range ∨ e = .internalConsistency := by
  unfold buildPaddr at h
  dsimp only at h
  repeat' split at h
  all_goals cases h <;> simp

/-- Choosing the micro-program raises RangeError or InternalConsistencyError only. -/
theorem batchProgram_error {cfg : Config} {p : Protocol} {capcode : Word} {mt : MsgType} {body : Text} {e : ErrorClass}
    (h : batchProgram cfg p capcode mt body = .error e) : e = .range ∨ e = .internalConsistency := by
  cases p with
  | flex =>
    replace h : flexBatch cfg capcode = .error e := h
    unfold flexBatch at h
    split at h
    · split at h
      · cases h
      · next h' => cases h; exact .inl (buildSaddr_error h')
    · cases h; exact .inl rfl
  | pocsag =>
    replace h : pocsagBatch cfg capcode mt body = .error e := h
    unfold pocsagBatch at h
    split at h
    · next h' => cases h; exact buildPaddr_error h'
    · cases h

/-! ## CONSTRUCT -/

/-- A micro-program runs to the end of its batch or to CapacityError, from any state. -/
theorem runProgram_cases (rep : Nat) (ops : List Instr) (s : State) (hops : ∀ i ∈ ops, i.isMicro = true ∧ i.wf = true) :
    (runProgram rep ops s = .next (finishConstruct { s with q := s.q ++ replicateBits rep (programBits s.cfg ops) }) ∧
        (s.Bounded → s.q.length + rep * (programBits s.cfg ops).length ≤ s.cfg.queueCapacity.val)) ∨
      (runProgram rep ops s = .next (enterError .capacity s) ∧
        s.cfg.queueCapacity.val < s.q.length + rep * (programBits s.cfg ops).length) := by
  by_cases hb : s.Bounded
  · rw [runProgram_eq rep ops s hb hops]
    by_cases h : s.q.length + rep * (programBits s.cfg ops).length ≤ s.cfg.queueCapacity.val
    · exact .inl ⟨if_pos h, fun _ => h⟩
    · exact .inr ⟨if_neg h, Nat.not_le.mp h⟩
  · have hlt : s.cfg.queueCapacity.val < s.q.length := Nat.not_le.mp hb
    cases ops with
    | nil => exact .inl ⟨by simp [runProgram, programBits, programWords, runSequencer, sequencerStep, startProgram,
        finishConstruct, respond], fun h => absurd h hb⟩
    | cons i is =>
      obtain ⟨hm, hw⟩ := hops i (by simp)
      refine .inr ⟨?_, by omega⟩
      have h := sequencerStep_encode i (programWords is) rep (startProgram rep (programWords (i :: is)) s) hm hw
      have hp : programWords (i :: is) = encode i ++ programWords is := by simp [programWords]
      have hfull : appendBits rep (microBits s.cfg i) (startProgram rep (programWords is) s) = enterError .capacity s := by
        rw [appendBits_of_full (by simp only [startProgram_q, startProgram_cfg]; omega), enterError_startProgram]
      unfold runProgram
      rw [hp] at h ⊢
      rw [List.length_cons, runSequencer]
      simp only [startProgram_seq, startProgram_cfg] at h ⊢
      rw [h]
      show runSequencer (is.length + 1) (appendBits rep (microBits s.cfg i) (startProgram rep (programWords is) s)) = _
      rw [hfull, runSequencer_idle _ _ (enterError_seq _ _)]

/-- Everything CONSTRUCT can do (R283): it is refused outside IDLE, takes one error entry, or queues one whole batch. -/
theorem execConstruct_cases (protocol msgType : BitVec 8) (baudRate symbolRate capcode : Word) (body : Text) (s : State) :
    (s.phase ≠ .idle ∧
        execConstruct protocol msgType baudRate symbolRate capcode body s = .next (refuse .wrongPhase s)) ∨
      (s.phase = .idle ∧ ∃ e, execConstruct protocol msgType baudRate symbolRate capcode body s = .next (enterError e s)) ∨
      (s.phase = .idle ∧ ∃ bits, (s.Bounded → s.q.length + bits.length ≤ s.cfg.queueCapacity.val) ∧
        execConstruct protocol msgType baudRate symbolRate capcode body s =
          .next (finishConstruct { s with q := s.q ++ bits })) := by
  by_cases hp : s.phase = .idle
  · refine .inr ?_
    simp only [execConstruct, hp, if_true]
    cases hc : checkArguments protocol msgType baudRate symbolRate with
    | error e => exact .inl ⟨trivial, e, rfl⟩
    | ok r =>
      obtain ⟨p, mt, rep⟩ := r
      dsimp only
      cases hbp : batchProgram s.cfg p capcode mt body with
      | error e => exact .inl ⟨trivial, e, rfl⟩
      | ok ops =>
        rcases runProgram_cases rep ops s (batchProgram_ok hbp) with ⟨h, hroom⟩ | ⟨h, -⟩
        · exact .inr ⟨trivial, _, by simpa using hroom, h⟩
        · exact .inl ⟨trivial, _, h⟩
  · exact .inl ⟨hp, by simp [execConstruct, hp]⟩

/-! ## FETCH and the pure commands -/

/-- Everything FETCH can do (R284). -/
theorem execFetch_cases (n : Word) (s : State) :
    (s.phase = .ready ∧ s.q ≠ [] ∧ execFetch n s = .next (respond (.symbols (drained n.toNat s)) (drain n.toNat s))) ∨
      (s.phase = .ready ∧ s.q = [] ∧ execFetch n s = .next (respond .eos { s with phase := .drained })) ∨
      (s.phase = .drained ∧ execFetch n s = .next (respond .eos s)) ∨
      ((s.phase = .idle ∨ s.phase = .failed) ∧ execFetch n s = .next (refuse .wrongPhase s)) := by
  cases hp : s.phase <;> simp [execFetch, hp]
  by_cases hq : s.q = [] <;> simp [hq]

/-- A pure command returns one response, VALUE or ERROR, and writes nothing else (R286). -/
theorem exec_pure (i : Instr) (s : State) (h : i.isPure = true) :
    ∃ a, exec i s = .next (respond a s) ∧ ((∃ v, a = .value v) ∨ ∃ e : ErrorClass, a = .error e.code) := by
  cases i <;> simp [Instr.isPure] at h
  case addChecksum w => exact ⟨_, rfl, .inl ⟨_, rfl⟩⟩
  case parity x => exact ⟨_, rfl, .inl ⟨_, rfl⟩⟩
  case reverse32 x => exact ⟨_, rfl, .inl ⟨_, rfl⟩⟩
  case fecEncode x => exact ⟨_, rfl, .inl ⟨_, rfl⟩⟩
  case buildFiw cycle frame roaming rept t => exact ⟨_, rfl, .inl ⟨_, rfl⟩⟩
  case buildBiw1 priority a vectorStart carryOn collapse => exact ⟨_, rfl, .inl ⟨_, rfl⟩⟩
  case buildNvw vectorType messageStart nWords cksum => exact ⟨_, rfl, .inl ⟨_, rfl⟩⟩
  case buildSaddr address =>
    obtain ⟨a, h1, h2⟩ := respondResult_eq (buildSaddr s.cfg address) s
    exact ⟨a, congrArg Host.Outcome.next h1, h2⟩
  case buildPaddr capcode func =>
    obtain ⟨a, h1, h2⟩ := respondResult_eq (buildPaddr s.cfg capcode func) s
    exact ⟨a, congrArg Host.Outcome.next h1, h2⟩

/-! ## Any instruction, any step -/

/-- What a host command can leave (R288): one response, and of the rest of the state one of the six changes listed. -/
inductive CommandResult (s : State) : State → Prop where
  | answered (a : Response) : CommandResult s (respond a s)
  | reset : CommandResult s (respond .ok (resetFields s))
  | failed (e : ErrorClass) (h : s.phase = .idle) : CommandResult s (enterError e s)
  | built (bits : List Bit) (h : s.phase = .idle)
      (hroom : s.Bounded → s.q.length + bits.length ≤ s.cfg.queueCapacity.val) :
      CommandResult s (finishConstruct { s with q := s.q ++ bits })
  | fetched (n : Nat) (h : s.phase = .ready) : CommandResult s (respond (.symbols (drained n s)) (drain n s))
  | exhausted (h : s.phase = .ready) (hq : s.q = []) : CommandResult s (respond .eos { s with phase := .drained })

/-- Every host command answers a next state, and one of those of `CommandResult`. -/
theorem exec_host (i : Instr) (s : State) (h : i.isMicro = false) : ∃ t, exec i s = .next t ∧ CommandResult s t := by
  by_cases hp : i.isPure = true
  · obtain ⟨a, h1, -⟩ := exec_pure i s hp
    exact ⟨_, h1, .answered a⟩
  · cases i <;> simp [Instr.isMicro] at h <;> simp [Instr.isPure] at hp
    case reset => exact ⟨_, rfl, .reset⟩
    case construct protocol msgType baudRate symbolRate capcode body =>
      rcases execConstruct_cases protocol msgType baudRate symbolRate capcode body s with
        ⟨-, h⟩ | ⟨hi, e, h⟩ | ⟨hi, bits, hroom, h⟩
      · exact ⟨_, h, .answered _⟩
      · exact ⟨_, h, .failed e hi⟩
      · exact ⟨_, h, .built bits hi hroom⟩
    case fetch n =>
      rcases execFetch_cases n s with ⟨hr, -, h⟩ | ⟨hr, hq, h⟩ | ⟨-, h⟩ | ⟨-, h⟩
      · exact ⟨_, h, .fetched _ hr⟩
      · exact ⟨_, h, .exhausted hr hq⟩
      · exact ⟨_, h, .answered _⟩
      · exact ⟨_, h, .answered _⟩
    case readStatus => exact ⟨_, rfl, .answered _⟩

/-- The host decoder yields host commands only (R117, R254). -/
theorem decodeHost_isMicro {tx : Transaction} {i : Instr} (h : decodeHost tx = .command i) : i.isMicro = false := by
  unfold decodeHost at h
  split at h
  · cases h
  · split at h
    · unfold decodeOpcode at h
      split at h <;>
        (try simp only [noArgument, oneArgument, twoArguments, decodeConstruct, decodeFiw, decodeBiw1, decodeNvw, decodePaddr] at h) <;>
        (repeat' split at h) <;> first | contradiction | (cases h; rfl)
    · cases h

/-- Everything a step can do between commands: nothing waits; the oldest transaction is performed or refused with one
response; or it has not the shape of a command and the model stops. -/
theorem step_between_commands (s : State) (h : s.seq = none) :
    (s.commands = [] ∧ step s = .next s) ∨
      (∃ tx rest, s.commands = tx :: rest ∧ decodeHost tx = .malformed ∧ step s = .refused .malformedTransaction) ∨
      (∃ tx rest t, s.commands = tx :: rest ∧ step s = .next t ∧ CommandResult { s with commands := rest } t) := by
  have hs : step s = commandStep s := by simp [step, fetchAndRun, h]
  rw [hs]
  cases hc : s.commands with
  | nil => exact .inl ⟨rfl, by simp [commandStep, hc]⟩
  | cons tx rest =>
    refine .inr ?_
    cases hd : decodeHost tx with
    | malformed => exact .inl ⟨tx, rest, rfl, hd, by simp [commandStep, hc, hd]⟩
    | refuse r => exact .inr ⟨tx, rest, _, rfl, by simp [commandStep, hc, hd]; rfl, .answered (.refused r)⟩
    | command i =>
      obtain ⟨t, h1, h2⟩ := exec_host i { s with commands := rest } (decodeHost_isMicro hd)
      exact .inr ⟨tx, rest, t, rfl, by simp [commandStep, hc, hd, h1], h2⟩

end Sys2Proof.Machine
end

