-- ==== Sys2Proof/Laws/Primitives.lean ====
section
/-! SUPPORT. Small laws of the bit primitives, and that the configuration's tables reach every function the spec allows. -/

namespace Sys2Proof.Machine

theorem reverse32_getLsbD (x : Word) (k : Nat) (hk : k < 32) : (reverse32 x).getLsbD k = x.getLsbD (31 - k) := by
  rw [reverse32, BitVec.getLsbD_reverse, BitVec.getMsbD]
  simp [hk]

/-- A table that lists every key holds the listed value. -/
theorem lookup_map_self {α β : Type} [BEq α] [LawfulBEq α] (f : α → β) (keys : List α) (a : α) (h : a ∈ keys) :
    (keys.map fun k => (k, f k)).lookup a = some (f a) := by
  induction keys with
  | nil => simp at h
  | cons k ks ih =>
    by_cases hk : a = k
    · subst hk; simp
    · have hmem : a ∈ ks := by simpa [hk] using h
      have hne : (a == k) = false := by simpa using hk
      rw [List.map_cons, List.lookup_cons, hne]
      exact ih hmem

/-- Every total function of the 21 data bits is the FEC_ENCODE of some configuration (R11, R143; log 2). -/
theorem fecParam_reaches_every_function (cfg : Config) (f : BitVec 21 → Word) :
    ∃ table, ∀ d, fecParam { cfg with fecTable := table } d = f d := by
  refine ⟨((List.range (2 ^ 21)).map (BitVec.ofNat 21)).map fun d => (d, f d), fun d => ?_⟩
  have hmem : d ∈ (List.range (2 ^ 21)).map (BitVec.ofNat 21) :=
    List.mem_map.mpr ⟨d.toNat, List.mem_range.mpr d.isLt, by simp⟩
  simp only [fecParam, lookup_map_self f _ d hmem, Option.getD_some]

/-- The body encoder's value at one message is whatever the configuration says (R12; log 3). -/
theorem bodyEncoder_reaches_every_value (cfg : Config) (mt : MsgType) (body : Text) (words : List Word) :
    bodyEncoder { cfg with bodyTable := ((mt, body), words) :: cfg.bodyTable } mt body = words := by
  simp [bodyEncoder, List.lookup]

/-- The wrapper reads only bits [31:11] of its input (R143 (b), D17). -/
theorem fecEncode_congr (cfg : Config) {x y : Word} (h : x.extractLsb' 11 21 = y.extractLsb' 11 21) :
    fecEncode cfg x = fecEncode cfg y := by
  simp [fecEncode, h]

theorem checksumSum_le (w : Word) : checksumSum w ≤ 61 := by
  have h1 := (w.extractLsb' 4 4).isLt
  have h2 := (w.extractLsb' 8 4).isLt
  have h3 := (w.extractLsb' 12 4).isLt
  have h4 := (w.extractLsb' 16 4).isLt
  have h5 := (w.extractLsb' 20 1).isLt
  simp only [checksumSum]
  omega

end Sys2Proof.Machine
end

