-- ==== Sys2Proof/Certificates/Slice0/Obligations.lean ====
section
/-! DEFINITION. The statements about the model, for the provers. -/

open Sys2Proof Sys2Proof.Machine

/-! ## Encoding and decoding -/

/-- Decode and encode agree: every host command's transaction decodes to it, and every well-formed micro-op's words in front
of any program decode to it and leave that program (R110, R111, R113, R114, R115). -/
def Obligations.DecodeOfEncodeIsTheInstruction : Prop :=
  ∀ i : Instr,
    (i.isMicro = false → decodeHost (encodeHost i) = .command i) ∧
      (i.isMicro = true → i.wf = true → ∀ rest, decodeMicro (encode i ++ rest) = .ok (i, rest))

/-- Each transaction that decodes has one meaning: it is the encoding of the command it decodes to, so no bit of a command
is dropped (R111, R116). -/
def Obligations.HostTransactionIsTheEncodingOfItsCommand : Prop :=
  ∀ tx i, decodeHost tx = .command i → tx = encodeHost i ∧ i.isMicro = false

/-- Each micro-op word that decodes is the encoding of a well-formed micro-op (R114, R115). -/
def Obligations.MicroWordsAreTheEncodingOfTheirMicroOp : Prop :=
  ∀ words i rest, decodeMicro words = .ok (i, rest) → words = encode i ++ rest ∧ i.isMicro = true ∧ i.wf = true

/-- R117: a command word with a reserved bit set is refused RESERVED_BITS whatever follows it; with those bits 0, an opcode
that R113 does not list, 0x00 and 0x80 to 0x82 among them, is refused ILLEGAL_OPCODE. -/
def Obligations.ReservedWordsAndIllegalOpcodesAreRefused : Prop :=
  ∀ (c : Word) (args : List Word) (body : Text),
    (c.extractLsb' 8 24 ≠ 0#24 → decodeHost { words := c :: args, body := body } = .refuse .reservedBits) ∧
      (c.extractLsb' 8 24 = 0#24 →
        (c.extractLsb' 0 8).toNat ∉ [0x01, 0x02, 0x03, 0x04, 0x10, 0x11, 0x12, 0x13, 0x20, 0x21, 0x22, 0x23, 0x24] →
        decodeHost { words := c :: args, body := body } = .refuse .illegalOpcode)

/-- The argument bits R113 marks reserved: a command of the right number of words with one of them set is refused
RESERVED_BITS. -/
def Obligations.ReservedArgumentBitsAreRefused : Prop :=
  (∀ (a0 a1 a2 a3 : Word) (body : Text), a0.extractLsb' 16 16 ≠ 0#16 →
      decodeHost { words := [0x00000002#32, a0, a1, a2, a3], body := body } = .refuse .reservedBits) ∧
    (∀ (c a0 : Word), c = 0x00000020#32 ∨ c = 0x00000021#32 ∨ c = 0x00000023#32 →
      a0.extractLsb' 0 4 ≠ 0#4 ∨ a0.extractLsb' 21 11 ≠ 0#11 →
      decodeHost { words := [c, a0], body := [] } = .refuse .reservedBits) ∧
    ∀ a0 a1 : Word, a1.extractLsb' 2 30 ≠ 0#30 →
      decodeHost { words := [0x00000024#32, a0, a1], body := [] } = .refuse .reservedBits

/-- A few words written out from the spec's encodings decode to what they stand for (R113, R114). -/
def Obligations.WordsOfTheSpecDecode : Prop :=
  decodeHost { words := [0x00000001#32], body := [] } = .command .reset ∧
    decodeHost { words := [0x00000003#32, 0x00000460#32], body := [] } = .command (.fetch 1120#32) ∧
    decodeHost { words := [0x00000020#32, 0x00050530#32], body := [] } = .command (.buildFiw 3#4 5#7 0#1 1#1 2#4) ∧
    decodeHost { words := [0x00000024#32, 0x00067D69#32, 0x00000003#32], body := [] } =
      .command (.buildPaddr 425321#32 3#2) ∧
    decodeMicro [0x00000082#32] = .ok (.qvec 0#8, [])

/-! ## The step -/

/-- Between commands, a step on a transaction that decodes to a command is exec of that command, the transaction taken off
the port (R116, R280). -/
def Obligations.StepRunsTheDecodedCommand : Prop :=
  ∀ (s : State) (tx : Transaction) (rest : List Transaction) (i : Instr),
    s.seq = none → s.commands = tx :: rest → decodeHost tx = .command i → step s = exec i { s with commands := rest }

/-- Inside a CONSTRUCT transition, a step on a micro-program that decodes is exec of its first micro-op, the sequencer moved
past that micro-op's words (R31). -/
def Obligations.StepRunsTheDecodedMicroOp : Prop :=
  ∀ (s : State) (sq : Sequencer) (i : Instr) (rest : List Word),
    s.seq = some sq → decodeMicro sq.prog = .ok (i, rest) →
      step s = exec i { s with seq := some { rep := sq.rep, prog := rest } }

/-- At the end of its micro-program the sequencer ends the transition: READY, err 0, response OK (R31, R283). -/
def Obligations.StepEndsAFinishedMicroProgram : Prop :=
  ∀ (s : State) (rep : Nat), s.seq = some { rep := rep, prog := [] } →
    step s = .next { s with phase := .ready, err := 0#3, seq := none, responses := s.responses ++ [.ok] }

/-- R281: a command the decoder refuses answers REFUSED with its reason and changes no field of S. -/
def Obligations.StepAnswersARefusedCommand : Prop :=
  ∀ (s : State) (tx : Transaction) (rest : List Transaction) (reason : RefuseReason),
    s.seq = none → s.commands = tx :: rest → decodeHost tx = .refuse reason →
      step s = .next { s with commands := rest, responses := s.responses ++ [.refused reason] }

/-- R328: with no command waiting and no transition in progress the block keeps its state. -/
def Obligations.StepWithoutCommandKeepsTheState : Prop :=
  ∀ s : State, s.seq = none → s.commands = [] → step s = .next s

/-- The one stop of the command port (the model's own choice, log 7): a transaction that has not the shape of any command.
It happens exactly when the decoder says so. -/
def Obligations.StepStopsExactlyOnMalformedTransactions : Prop :=
  ∀ (s : State) (tx : Transaction) (rest : List Transaction),
    s.seq = none → s.commands = tx :: rest →
      (step s = .refused .malformedTransaction ↔ decodeHost tx = .malformed)

/-! ## Reset and status -/

/-- R340: the state after RESET, of the machine's reset state and after every RESET command: phase IDLE, err 0, the queue
empty, hence STATUS 0 and QLEN 0; the configuration is not changed by RESET. -/
def Obligations.StateAfterResetHasTheStatedValues : Prop :=
  (State.reset.phase = .idle ∧ State.reset.err = 0#3 ∧ State.reset.q = [] ∧
    statusWord State.reset = 0x00000000#32 ∧ qlenWord State.reset = 0x00000000#32) ∧
  ∀ s t : State, exec .reset s = .next t →
    t.phase = .idle ∧ t.err = 0#3 ∧ t.q = [] ∧ statusWord t = 0x00000000#32 ∧ qlenWord t = 0x00000000#32 ∧ t.cfg = s.cfg

/-- R282: RESET, in any phase, empties the queue, clears err, goes to IDLE and answers OK, and changes nothing else. -/
def Obligations.ResetCommandRestoresTheInitialState : Prop :=
  encode .reset = [0x00000001#32] ∧
    ∀ s : State, exec .reset s =
      .next { s with phase := .idle, err := 0#3, q := [], responses := s.responses ++ [.ok] }

/-- R285 with R35 and R36: READ_STATUS answers STATUS, its PHASE in [1:0], ERR in [4:2], zeros above, and QLEN, and changes
nothing else. -/
def Obligations.ReadStatusReportsPhaseErrorAndLength : Prop :=
  encode .readStatus = [0x00000004#32] ∧
    ∀ s : State, ∃ st ql : Word,
      exec .readStatus s = .next { s with responses := s.responses ++ [.status st ql] } ∧
        (s.phase = .idle → st.extractLsb' 0 2 = 0#2) ∧ (s.phase = .ready → st.extractLsb' 0 2 = 1#2) ∧
        (s.phase = .drained → st.extractLsb' 0 2 = 2#2) ∧ (s.phase = .failed → st.extractLsb' 0 2 = 3#2) ∧
        st.extractLsb' 2 3 = s.err ∧ st.extractLsb' 5 27 = 0#27 ∧ (s.Bounded → ql.toNat = s.q.length) ∧
        (s.Consistent → s.phase = .drained ∨ s.phase = .failed → ql = 0#32)

/-! ## FETCH -/

/-- R284: FETCH in each phase. Nothing but the queue, the phase and the responses changes. -/
def Obligations.FetchDeliversFromTheFront : Prop :=
  ∀ (n : Word) (s : State),
    encode (.fetch n) = [0x00000003#32, n] ∧
    (s.phase = .ready → s.q ≠ [] → exec (.fetch n) s =
      .next { s with
        q := s.q.drop n.toNat
        responses := s.responses ++ [.symbols ((s.q.take n.toNat).map fun b => if b then .neg else .pos)] }) ∧
    (s.phase = .ready → s.q = [] →
      exec (.fetch n) s = .next { s with phase := .drained, responses := s.responses ++ [.eos] }) ∧
    (s.phase = .drained → exec (.fetch n) s = .next { s with responses := s.responses ++ [.eos] }) ∧
    (s.phase = .idle ∨ s.phase = .failed →
      exec (.fetch n) s = .next { s with responses := s.responses ++ [.refused .wrongPhase] })

/-- R259: whatever the chunk sizes, the symbols of a run of FETCH commands are the symbols of the queue's front, one per bit
and in order, and what they took is gone; when the counts reach the queue's length that is the whole queue. -/
def Obligations.FetchChunkingIsInvariant : Prop :=
  ∀ (ns : List Word) (s : State), s.phase = .ready →
    ∃ t, runInstrs (ns.map .fetch) s = .next t ∧
      streamOf t.responses = streamOf s.responses ++ (s.q.take (ns.map BitVec.toNat).sum).map sym ∧
      t.q = s.q.drop (ns.map BitVec.toNat).sum ∧
      (s.q.length ≤ (ns.map BitVec.toNat).sum → streamOf t.responses = streamOf s.responses ++ s.q.map sym ∧ t.q = [])

/-! ## Bit primitives -/

/-- R140: ADD_CHECKSUM keeps bits [31:4] and sets bits [3:0] to the complement, modulo 16, of the sum of four nibbles and
bit 20. It answers that value in every state and changes nothing else. -/
def Obligations.AddChecksumComplementsTheNibbleSum : Prop :=
  ∀ (w : Word) (s : State), encode (.addChecksum w) = [0x00000010#32, w] ∧
    ∃ v : Word, exec (.addChecksum w) s = .next { s with responses := s.responses ++ [.value v] } ∧
      v.extractLsb' 4 28 = w.extractLsb' 4 28 ∧
      (v.extractLsb' 0 4).toNat =
        15 - ((w.extractLsb' 4 4).toNat + (w.extractLsb' 8 4).toNat + (w.extractLsb' 12 4).toNat
          + (w.extractLsb' 16 4).toNat + (w.extractLsb' 20 1).toNat) % 16

/-- R140's corner: applying ADD_CHECKSUM twice equals applying it once, and the incoming bits [3:0] do not matter. -/
def Obligations.AddChecksumIsIdempotent : Prop :=
  ∀ w : Word, addChecksum (addChecksum w) = addChecksum w ∧
    ∀ u : Word, u.extractLsb' 4 28 = w.extractLsb' 4 28 → addChecksum u = addChecksum w

/-- R141: PARITY answers 1 when the operand has an odd number of one bits, else 0. -/
def Obligations.ParityCountsOneBits : Prop :=
  ∀ (x : Word) (s : State), encode (.parity x) = [0x00000011#32, x] ∧
    ∃ v : Word, exec (.parity x) s = .next { s with responses := s.responses ++ [.value v] } ∧
      v.toNat = ((List.range 32).filter fun k => x.getLsbD k).length % 2

/-- R142: REVERSE32 puts bit 31 - k of the operand at bit k; twice is the identity; bits [20:0] move to bits [31:11]. -/
def Obligations.Reverse32ReversesTheBits : Prop :=
  ∀ (x : Word) (s : State), encode (.reverse32 x) = [0x00000012#32, x] ∧
    ∃ v : Word, exec (.reverse32 x) s = .next { s with responses := s.responses ++ [.value v] } ∧
      (∀ k, k < 32 → v.getLsbD k = x.getLsbD (31 - k)) ∧ reverse32 v = x ∧
      (x.extractLsb' 21 11 = 0#11 → v.extractLsb' 0 11 = 0#11)

/-- R143: FEC_ENCODE answers the value of the configured FEC function at bits [31:11] of its operand, so bits [10:0] do not
matter. -/
def Obligations.FecEncodeReadsOnlyTheDataBits : Prop :=
  ∀ (x : Word) (s : State), encode (.fecEncode x) = [0x00000013#32, x] ∧
    exec (.fecEncode x) s = .next { s with responses := s.responses ++ [.value (fecParam s.cfg (x.extractLsb' 11 21))] } ∧
    ∀ y : Word, y.extractLsb' 11 21 = x.extractLsb' 11 21 → exec (.fecEncode y) s = exec (.fecEncode x) s

/-- R144: every codeword of the default code keeps the data in [31:11], has even parity over its 32 bits, and its upper 31
bits leave remainder 0 under the generator 0x769. (The default is the spec's own, from general knowledge: I2, log 2.) -/
def Obligations.DefaultFecCodewordsAreSystematicAndEven : Prop :=
  ∀ d : BitVec 21,
    (fecDefault d).extractLsb' 11 21 = d ∧
      ((List.range 32).filter fun k => (fecDefault d).getLsbD k).length % 2 = 0 ∧
      fecRemainder ((fecDefault d).extractLsb' 1 31) = 0#31

/-- R144's corner: the default code is linear. (The default is the spec's own, from general knowledge: I2, log 2.) -/
def Obligations.DefaultFecIsLinear : Prop :=
  ∀ d e : BitVec 21, fecDefault (d ^^^ e) = fecDefault d ^^^ fecDefault e

/-- The default code of R144 meets contracts (c), (d) and (e) of R143. (The default is the spec's own, from general knowledge:
I2, log 2.) -/
def Obligations.DefaultFecMeetsTheContract : Prop :=
  ∀ cfg : Config, cfg.fecTable = [] → FecContract cfg ∧ FecSystematic cfg

/-- R145: with the default code BUILD_PADDR's consistency check never fails, so in-range capcodes always get a value. -/
def Obligations.DefaultFecNeverFailsTheAddressCheck : Prop :=
  ∀ (s : State) (capcode : Word) (func : BitVec 2), s.cfg.fecTable = [] → capcode.toNat ≤ 2097151 →
    ∃ v, exec (.buildPaddr capcode func) s = .next { s with responses := s.responses ++ [.value v] }

/-! ## Word builders -/

/-- R161 with R102 and R160: BUILD_FIW answers the codeword of the reversed, checksummed data word whose fields are its
operands and whose other bits are 0. -/
def Obligations.BuildFiwWrapsItsFields : Prop :=
  ∀ (cycle : BitVec 4) (frame : BitVec 7) (roaming rept : BitVec 1) (t : BitVec 4) (s : State),
    ∃ w : Word, exec (.buildFiw cycle frame roaming rept t) s =
        .next { s with responses := s.responses ++ [.value (fecEncode s.cfg (reverse32 (addChecksum w)))] } ∧
      encode (.buildFiw cycle frame roaming rept t) = [0x00000020#32, w] ∧
      w.extractLsb' 0 4 = 0#4 ∧ w.extractLsb' 4 4 = cycle ∧ w.extractLsb' 8 7 = frame ∧ w.extractLsb' 15 1 = roaming ∧
      w.extractLsb' 16 1 = rept ∧ w.extractLsb' 17 4 = t ∧ w.extractLsb' 21 11 = 0#11

/-- R163 with R103 and R160: BUILD_BIW1. -/
def Obligations.BuildBiw1WrapsItsFields : Prop :=
  ∀ (priority : BitVec 4) (a : BitVec 2) (vectorStart : BitVec 6) (carryOn : BitVec 2) (collapse : BitVec 3) (s : State),
    ∃ w : Word, exec (.buildBiw1 priority a vectorStart carryOn collapse) s =
        .next { s with responses := s.responses ++ [.value (fecEncode s.cfg (reverse32 (addChecksum w)))] } ∧
      encode (.buildBiw1 priority a vectorStart carryOn collapse) = [0x00000021#32, w] ∧
      w.extractLsb' 0 4 = 0#4 ∧ w.extractLsb' 4 4 = priority ∧ w.extractLsb' 8 2 = a ∧ w.extractLsb' 10 6 = vectorStart ∧
      w.extractLsb' 16 2 = carryOn ∧ w.extractLsb' 18 3 = collapse ∧ w.extractLsb' 21 11 = 0#11

/-- R165 with R105 and R160: BUILD_NVW. -/
def Obligations.BuildNvwWrapsItsFields : Prop :=
  ∀ (vectorType : BitVec 3) (messageStart : BitVec 7) (nWords : BitVec 3) (cksum : BitVec 4) (s : State),
    ∃ w : Word, exec (.buildNvw vectorType messageStart nWords cksum) s =
        .next { s with responses := s.responses ++ [.value (fecEncode s.cfg (reverse32 (addChecksum w)))] } ∧
      encode (.buildNvw vectorType messageStart nWords cksum) = [0x00000023#32, w] ∧
      w.extractLsb' 0 4 = 0#4 ∧ w.extractLsb' 4 3 = vectorType ∧ w.extractLsb' 7 7 = messageStart ∧
      w.extractLsb' 14 3 = nWords ∧ w.extractLsb' 17 4 = cksum ∧ w.extractLsb' 21 11 = 0#11

/-- R164: BUILD_SADDR answers the codeword of the reversed address, no checksum, in 32769 to 1966080, and ERROR(2) outside;
nothing else changes either way. -/
def Obligations.BuildSaddrChecksItsRange : Prop :=
  ∀ (address : Word) (s : State), encode (.buildSaddr address) = [0x00000022#32, address] ∧
    (32769 ≤ address.toNat ∧ address.toNat ≤ 1966080 → exec (.buildSaddr address) s =
      .next { s with responses := s.responses ++ [.value (fecEncode s.cfg (reverse32 address))] }) ∧
    (address.toNat < 32769 ∨ 1966080 < address.toNat →
      exec (.buildSaddr address) s = .next { s with responses := s.responses ++ [.error 2#3] })

/-- R166 with R106: BUILD_PADDR answers the codeword of addrTemp when that keeps addrTemp's bits [31:11], ERROR(4) when it
does not, and ERROR(2) when the capcode is above 2^21 - 1; nothing else changes. -/
def Obligations.BuildPaddrChecksRangeThenConsistency : Prop :=
  ∀ (capcode : Word) (func : BitVec 2) (s : State), encode (.buildPaddr capcode func) =
      [0x00000024#32, capcode, func.setWidth 32] ∧
    (2097151 < capcode.toNat →
      exec (.buildPaddr capcode func) s = .next { s with responses := s.responses ++ [.error 2#3] }) ∧
    (capcode.toNat ≤ 2097151 → ∃ temp : Word,
      temp.extractLsb' 31 1 = 0#1 ∧ temp.extractLsb' 13 18 = capcode.extractLsb' 3 18 ∧ temp.extractLsb' 11 2 = func ∧
      temp.extractLsb' 0 11 = 0#11 ∧
      exec (.buildPaddr capcode func) s = .next { s with responses := s.responses ++
        [if (fecEncode s.cfg temp).extractLsb' 11 21 = temp.extractLsb' 11 21 then .value (fecEncode s.cfg temp)
         else .error 4#3] })

/-- R167: with a systematic FEC function the data word is recovered from a FLEX word by reversing it and keeping bits
[20:0]: with its checksum for FIW, BIW1 and NVW, as the address itself for the short address. -/
def Obligations.FlexWordsAreRecoverable : Prop :=
  ∀ cfg : Config, FecSystematic cfg →
    (∀ cycle frame roaming rept t,
      reverse32 (buildFiw cfg cycle frame roaming rept t) &&& 0x001FFFFF#32 = addChecksum (fiwData cycle frame roaming rept t)) ∧
    (∀ priority a vectorStart carryOn collapse,
      reverse32 (buildBiw1 cfg priority a vectorStart carryOn collapse) &&& 0x001FFFFF#32 =
        addChecksum (biw1Data priority a vectorStart carryOn collapse)) ∧
    (∀ vectorType messageStart nWords cksum,
      reverse32 (buildNvw cfg vectorType messageStart nWords cksum) &&& 0x001FFFFF#32 =
        addChecksum (nvwData vectorType messageStart nWords cksum)) ∧
    ∀ address v, buildSaddr cfg address = .ok v → reverse32 v &&& 0x001FFFFF#32 = address

/-- R286: in any phase a pure command answers VALUE or one of the two errors and writes no state. -/
def Obligations.PureCommandsWriteNoState : Prop :=
  ∀ (i : Instr) (s : State), i.isPure = true →
    ∃ a, exec i s = .next { s with responses := s.responses ++ [a] } ∧
      ((∃ v, a = .value v) ∨
        (a = .error 2#3 ∧ ((∃ address, i = .buildSaddr address) ∨ ∃ capcode func, i = .buildPaddr capcode func)) ∨
        (a = .error 4#3 ∧ ∃ capcode func, i = .buildPaddr capcode func))

/-! ## Micro-ops -/

/-- R251: QBIT appends R copies of its bit, or, when the queue would exceed its capacity, takes CapacityError; nothing else
changes in the first case, and error entry is all that happens in the second. -/
def Obligations.QbitAppendsRCopies : Prop :=
  ∀ (b : Bit) (s : State) (sq : Sequencer), s.seq = some sq →
    encode (.qbit b) = [if b then 0x00000180#32 else 0x00000080#32] ∧
    (s.q.length + sq.rep ≤ s.cfg.queueCapacity.val →
      exec (.qbit b) s = .next { s with q := s.q ++ List.replicate sq.rep b }) ∧
    (s.cfg.queueCapacity.val < s.q.length + sq.rep → exec (.qbit b) s = .next (errorState 5#3 s))

/-- R252: QWORD appends the word's 32 bits, bit 31 first, each R times in place, or takes CapacityError. -/
def Obligations.QwordAppendsMsbFirst : Prop :=
  ∀ (w : Word) (s : State) (sq : Sequencer), s.seq = some sq →
    encode (.qword w) = [0x00000081#32, w] ∧
    (s.q.length + 32 * sq.rep ≤ s.cfg.queueCapacity.val →
      ∃ bits : List Bit, exec (.qword w) s = .next { s with q := s.q ++ bits } ∧ bits.length = 32 * sq.rep ∧
        ∀ k, k < 32 → ∀ j, j < sq.rep → bits[sq.rep * k + j]? = some (w.getLsbD (31 - k))) ∧
    (s.cfg.queueCapacity.val < s.q.length + 32 * sq.rep → exec (.qword w) s = .next (errorState 5#3 s))

/-- R253 with R115: QVEC appends the pattern its identifier names, in its own order, each bit R times, or takes
CapacityError. -/
def Obligations.QvecAppendsItsPattern : Prop :=
  ∀ (s : State) (sq : Sequencer) (pid : BitVec 8) (bits : List Bit), s.seq = some sq →
    (pid = 0#8 ∧ bits = s.cfg.pocsagPreamble ∨ pid = 1#8 ∧ bits = s.cfg.flexBs ∨ pid = 2#8 ∧ bits = s.cfg.flexB ∨
      pid = 3#8 ∧ bits = s.cfg.flexCb) →
    encode (.qvec pid) = [0x00000082#32 ||| pid.setWidth 32 <<< 8] ∧
    (s.q.length + bits.length * sq.rep ≤ s.cfg.queueCapacity.val →
      exec (.qvec pid) s = .next { s with q := s.q ++ bits.flatMap fun b => List.replicate sq.rep b }) ∧
    (s.cfg.queueCapacity.val < s.q.length + bits.length * sq.rep → exec (.qvec pid) s = .next (errorState 5#3 s))

/-- R115, I13: a reserved pattern identifier names no pattern, and the model refuses it by name (log 11). -/
def Obligations.QvecStopsOnReservedPatterns : Prop :=
  ∀ (s : State) (sq : Sequencer) (pid : BitVec 8), s.seq = some sq → 4 ≤ pid.toNat →
    exec (.qvec pid) s = .refused (.reservedPattern pid)

/-- R76: when there is room, QWORD leaves exactly what the 32 QBITs of its bits from bit 31 down leave, and QVEC exactly what
QBIT applied to each element of its pattern in order leaves. -/
def Obligations.WordsAndPatternsAreSequencesOfBits : Prop :=
  ∀ (s : State) (sq : Sequencer), s.seq = some sq →
    (∀ w : Word, s.q.length + 32 * sq.rep ≤ s.cfg.queueCapacity.val →
      runInstrs ((List.range 32).map fun k => .qbit (w.getLsbD (31 - k))) s = exec (.qword w) s) ∧
    ∀ pid bits, pattern s.cfg pid = some bits → s.q.length + bits.length * sq.rep ≤ s.cfg.queueCapacity.val →
      runInstrs (bits.map .qbit) s = exec (.qvec pid) s

/-- R117, R254: outside a CONSTRUCT transition a micro-op is refused ILLEGAL_OPCODE and changes no state (log 10). -/
def Obligations.MicroOpsAreRefusedOutsideConstruct : Prop :=
  ∀ (i : Instr) (s : State), i.isMicro = true → s.seq = none →
    exec i s = .next { s with responses := s.responses ++ [.refused .illegalOpcode] }

/-! ## CONSTRUCT -/

/-- R348: in READY, DRAINED and FAILED a CONSTRUCT is refused WRONG_PHASE, raises no error and changes no state. -/
def Obligations.ConstructIsRefusedOutsideIdle : Prop :=
  ∀ (protocol msgType : BitVec 8) (baudRate symbolRate capcode : Word) (body : Text) (s : State), s.phase ≠ .idle →
    exec (.construct protocol msgType baudRate symbolRate capcode body) s =
      .next { s with responses := s.responses ++ [.refused .wrongPhase] }

/-- R314 (1) to (4) with R318: a CONSTRUCT in IDLE reports the first error that applies, and error entry is all it does. -/
def Obligations.ConstructReportsItsFirstError : Prop :=
  ∀ (protocol msgType : BitVec 8) (baudRate symbolRate capcode : Word) (body : Text) (s : State), s.phase = .idle →
    let run := exec (.construct protocol msgType baudRate symbolRate capcode body) s
    let badRates := baudRate = 0#32 ∨ symbolRate = 0#32 ∨ symbolRate.toNat % baudRate.toNat ≠ 0
    let badAddress := capcode.toNat + s.cfg.flexAddrOffset < 32769 ∨ 1966080 < capcode.toNat + s.cfg.flexAddrOffset
    (2 ≤ protocol.toNat → run = .next (errorState 1#3 s)) ∧
    (protocol.toNat < 2 → badRates → run = .next (errorState 1#3 s)) ∧
    (protocol.toNat < 2 → ¬ badRates → 2 ≤ msgType.toNat → run = .next (errorState 3#3 s)) ∧
    (protocol = 0#8 → ¬ badRates → msgType.toNat < 2 → badAddress → run = .next (errorState 2#3 s)) ∧
    (protocol = 1#8 → ¬ badRates → msgType.toNat < 2 → 2097151 < capcode.toNat → run = .next (errorState 2#3 s)) ∧
    (protocol = 1#8 → ¬ badRates → msgType.toNat < 2 → capcode.toNat ≤ 2097151 →
      (∀ func : BitVec 2, func = (if msgType = 0#8 then s.cfg.pocsagFuncNumeric else s.cfg.pocsagFuncAlpha) →
        buildPaddr s.cfg capcode func = .error .internalConsistency) → run = .next (errorState 4#3 s))

/-- R190 to R200: a FLEX CONSTRUCT with good arguments whose batch fits. With FL the frame length, the queue is ten frames,
each BS, A1, ~A1, B, the frame-info word, CB and eleven blocks, each block its BIW1, short address, NVW, message codeword and
four BS, at the positions R200 gives, times R; CONSTRUCT answers OK and goes to READY. A batch that does not fit is
CapacityError (R199). -/
def Obligations.FlexConstructBuildsTenFrames : Prop :=
  ∀ (msgType : BitVec 8) (baudRate symbolRate capcode : Word) (body : Text) (rep : Nat) (s : State), s.Consistent →
    s.phase = .idle → msgType.toNat < 2 → 1 ≤ rep → baudRate ≠ 0#32 → symbolRate.toNat = rep * baudRate.toNat →
    32769 ≤ capcode.toNat + s.cfg.flexAddrOffset → capcode.toNat + s.cfg.flexAddrOffset ≤ 1966080 →
    let nBS := s.cfg.flexBs.length
    let nB := s.cfg.flexB.length
    let nCB := s.cfg.flexCb.length
    let FL := 45 * nBS + nB + nCB + 1504
    let block := 128 + 4 * nBS
    let run := exec (.construct 0#8 msgType baudRate symbolRate capcode body) s
    (s.cfg.queueCapacity.val < rep * (10 * FL) → run = .next (errorState 5#3 s)) ∧
    (rep * (10 * FL) ≤ s.cfg.queueCapacity.val → ∃ q : List Bit,
      run = .next { s with phase := .ready, err := 0#3, q := q, responses := s.responses ++ [.ok] } ∧
      q.length = rep * (10 * FL) ∧
      ∀ f, f < 10 →
        BitsAt q rep (f * FL) s.cfg.flexBs ∧
        WordAt q rep (f * FL + nBS) s.cfg.flexA1 ∧
        WordAt q rep (f * FL + nBS + 32) (~~~s.cfg.flexA1) ∧
        BitsAt q rep (f * FL + nBS + 64) s.cfg.flexB ∧
        WordAt q rep (f * FL + nBS + 64 + nB)
          (buildFiw s.cfg 0#4 (BitVec.ofNat 7 f) s.cfg.flexRoaming s.cfg.flexRepeat s.cfg.flexT) ∧
        BitsAt q rep (f * FL + nBS + 96 + nB) s.cfg.flexCb ∧
        ∀ b, b < 11 →
          let at0 := f * FL + nBS + 96 + nB + nCB + b * block
          let p := flexBlock s.cfg f b
          WordAt q rep at0 (buildBiw1 s.cfg p.priority p.a p.vectorStart p.carryOn p.collapse) ∧
          WordAt q rep (at0 + 32)
            (fecEncode s.cfg (reverse32 (BitVec.ofNat 32 (capcode.toNat + s.cfg.flexAddrOffset)))) ∧
          WordAt q rep (at0 + 64) (buildNvw s.cfg p.vectorType p.messageStart p.nWords p.msgCksum) ∧
          WordAt q rep (at0 + 96) p.msgCodeword ∧
          ∀ c, c < 4 → BitsAt q rep (at0 + 128 + c * nBS) s.cfg.flexBs)

/-- R220 to R231: a POCSAG CONSTRUCT with good arguments whose batch fits. With G groups after the preamble, every group
starts with the sync word at nP + 544 g; the address word is in slot 2 fo of group 0, idle words before it; body word k is in
the slot R231 gives it, and every other slot is idle; CONSTRUCT answers OK and goes to READY. A batch that does not fit is
CapacityError (R230). -/
def Obligations.PocsagConstructBuildsItsGroups : Prop :=
  ∀ (msgType : BitVec 8) (mt : MsgType) (baudRate symbolRate capcode addrWord : Word) (body : Text) (rep : Nat) (s : State),
    s.Consistent → s.phase = .idle → (msgType = 0#8 ∧ mt = .numeric ∨ msgType = 1#8 ∧ mt = .alpha) → 1 ≤ rep →
    baudRate ≠ 0#32 → symbolRate.toNat = rep * baudRate.toNat →
    buildPaddr s.cfg capcode (pocsagFunc s.cfg mt) = .ok addrWord →
    let words := bodyEncoder s.cfg mt body ++ [s.cfg.pocsagIdle]
    let fo := capcode.toNat % 8
    let first := 15 - 2 * fo
    let G := if words.length ≤ first then 1 else 1 + (words.length - first + 15) / 16
    let nP := s.cfg.pocsagPreamble.length
    let L := nP + 544 * G
    let run := exec (.construct 1#8 msgType baudRate symbolRate capcode body) s
    (s.cfg.queueCapacity.val < rep * L → run = .next (errorState 5#3 s)) ∧
    (rep * L ≤ s.cfg.queueCapacity.val → ∃ q : List Bit,
      run = .next { s with phase := .ready, err := 0#3, q := q, responses := s.responses ++ [.ok] } ∧
      q.length = rep * L ∧
      BitsAt q rep 0 s.cfg.pocsagPreamble ∧
      (∀ g, g < G → WordAt q rep (nP + 544 * g) 0x7CD215D8#32) ∧
      (∀ slot, slot < 2 * fo → WordAt q rep (nP + 32 + 32 * slot) s.cfg.pocsagIdle) ∧
      WordAt q rep (nP + 32 + 64 * fo) addrWord ∧
      (∀ k, k < first → WordAt q rep (nP + 32 + 32 * (2 * fo + 1 + k)) (words.getD k s.cfg.pocsagIdle)) ∧
      ∀ j, j < 16 * (G - 1) →
        WordAt q rep (nP + 544 * (1 + j / 16) + 32 + 32 * (j % 16)) (words.getD (first + j) s.cfg.pocsagIdle))

/-- R31: the one atomic CONSTRUCT transition is the sequencer run to completion: stepping the machine micro-op by micro-op from
the start of the selected micro-program, with no other command waiting, ends in exactly the state CONSTRUCT answers. -/
def Obligations.ConstructIsTheSequencerRunToCompletion : Prop :=
  ∀ (protocol msgType : BitVec 8) (baudRate symbolRate capcode : Word) (body : Text) (s : State) (p : Protocol)
    (mt : MsgType) (rep : Nat) (ops : List Instr), s.phase = .idle → s.commands = [] →
    checkArguments protocol msgType baudRate symbolRate = .ok (p, mt, rep) →
    batchProgram s.cfg p capcode mt body = .ok ops →
    Host.Core.run Sys2Proof.core (ops.length + 1) (startProgram rep (programWords ops) s) =
      exec (.construct protocol msgType baudRate symbolRate capcode body) s

/-- R313, R318 and R256 with R283: from a consistent IDLE state every CONSTRUCT queues the whole batch or nothing. Where the
checks pass and the micro-program is `ops`, its logical bits each replicated `rep` times are the whole queue in READY with
err 0 if they fit, and CapacityError's error entry is all that happens if they do not; where a check fails, the error entry of
one of the other four classes is all that happens. -/
def Obligations.ConstructIsAllOrNothing : Prop :=
  ∀ (protocol msgType : BitVec 8) (baudRate symbolRate capcode : Word) (body : Text) (s : State), s.Consistent →
    s.phase = .idle →
    let run := exec (.construct protocol msgType baudRate symbolRate capcode body) s
    (∀ (p : Protocol) (mt : MsgType) (rep : Nat) (ops : List Instr),
      checkArguments protocol msgType baudRate symbolRate = .ok (p, mt, rep) →
      batchProgram s.cfg p capcode mt body = .ok ops →
      (rep * (programBits s.cfg ops).length ≤ s.cfg.queueCapacity.val →
        run = .next { s with
          phase := .ready
          err := 0#3
          q := replicateBits rep (programBits s.cfg ops)
          responses := s.responses ++ [.ok] }) ∧
      (s.cfg.queueCapacity.val < rep * (programBits s.cfg ops).length → run = .next (errorState 5#3 s))) ∧
    ((∀ (p : Protocol) (mt : MsgType) (rep : Nat) (ops : List Instr),
      checkArguments protocol msgType baudRate symbolRate = .ok (p, mt, rep) →
      batchProgram s.cfg p capcode mt body ≠ .ok ops) →
      ∃ code : BitVec 3, 1 ≤ code.toNat ∧ code.toNat ≤ 4 ∧ run = .next (errorState code s))

/-- R287: a CONSTRUCT that succeeds leaves at least 544 bits per replication queued, so READY starts with a non-empty
queue. -/
def Obligations.SuccessfulConstructQueuesAtLeastOneGroup : Prop :=
  ∀ (protocol msgType : BitVec 8) (baudRate symbolRate capcode : Word) (body : Text) (s t : State), s.Consistent →
    s.phase = .idle → exec (.construct protocol msgType baudRate symbolRate capcode body) s = .next t → t.phase = .ready →
    544 * (symbolRate.toNat / baudRate.toNat) ≤ t.q.length ∧ t.q ≠ []

/-- R316: repeating a CONSTRUCT after a RESET gives the same result whatever happened before: the outcome depends on the
arguments and the configuration alone. -/
def Obligations.ConstructAfterResetForgetsThePast : Prop :=
  ∀ (protocol msgType : BitVec 8) (baudRate symbolRate capcode : Word) (body : Text) (s₁ s₂ : State),
    s₁.cfg = s₂.cfg → s₁.seq = none → s₂.seq = none →
    ∃ t₁ t₂ a,
      runInstrs [.reset, .construct protocol msgType baudRate symbolRate capcode body] s₁ = .next t₁ ∧
      runInstrs [.reset, .construct protocol msgType baudRate symbolRate capcode body] s₂ = .next t₂ ∧
      t₁.phase = t₂.phase ∧ t₁.err = t₂.err ∧ t₁.q = t₂.q ∧
      t₁.responses = s₁.responses ++ [.ok, a] ∧ t₂.responses = s₂.responses ++ [.ok, a]

/-! ## Whole-machine rules -/

/-- The reset state is consistent. -/
def Obligations.ResetStateIsConsistent : Prop := State.reset.Consistent

/-- Every step keeps consistency: the queue within capacity, bits queued in READY only, err 0 exactly outside FAILED and at
most 5, and no transition left half done (R32, R33, R34, R79, R81). -/
def Obligations.StepKeepsConsistency : Prop := ∀ s t : State, s.Consistent → step s = .next t → t.Consistent

/-- R81: the queue never exceeds its capacity, also between the micro-ops of a CONSTRUCT transition. -/
def Obligations.StepKeepsTheQueueWithinCapacity : Prop := ∀ s t : State, s.Bounded → step s = .next t → t.Bounded

/-- R39: no step writes the configuration. -/
def Obligations.StepNeverWritesTheConfiguration : Prop := ∀ s t : State, step s = .next t → t.cfg = s.cfg

/-- R280: between commands, each command that has the shape of one is taken off the port, answered with exactly one response,
and over when it is answered; no such command faults or is refused by the model. -/
def Obligations.EveryCommandGetsExactlyOneResponse : Prop :=
  ∀ (s : State) (tx : Transaction) (rest : List Transaction), s.seq = none → s.commands = tx :: rest →
    decodeHost tx ≠ .malformed →
    ∃ t a, step s = .next t ∧ t.commands = rest ∧ t.responses = s.responses ++ [a] ∧ t.seq = none

/-- R288: the complete list of phase transitions. A command between commands keeps the phase, or is RESET (to IDLE), or a
CONSTRUCT in IDLE (to READY or FAILED), or a FETCH in READY on an empty queue (to DRAINED). -/
def Obligations.PhaseChangesOnlyAsListed : Prop :=
  ∀ (s t : State) (tx : Transaction) (rest : List Transaction), s.seq = none → s.commands = tx :: rest →
    step s = .next t →
    (decodeHost tx = .command .reset ∧ t.phase = .idle) ∨
    ((∃ p m b y c body, decodeHost tx = .command (.construct p m b y c body)) ∧ s.phase = .idle ∧
      (t.phase = .ready ∧ t.err = 0#3 ∨ t.phase = .failed ∧ t.err ≠ 0#3)) ∨
    ((∃ n, decodeHost tx = .command (.fetch n)) ∧ s.phase = .ready ∧ s.q = [] ∧ t.phase = .drained) ∨
    (t.phase = s.phase ∧ decodeHost tx ≠ .command .reset ∧
      ((∃ p m b y c body, decodeHost tx = .command (.construct p m b y c body)) → s.phase ≠ .idle) ∧
      ((∃ n, decodeHost tx = .command (.fetch n)) → s.phase = .ready → s.q ≠ []))

/-- R319: FAILED is left only by RESET. -/
def Obligations.FailedIsLeftOnlyByReset : Prop :=
  ∀ (s t : State) (tx : Transaction) (rest : List Transaction), s.seq = none → s.phase = .failed →
    s.commands = tx :: rest → step s = .next t → decodeHost tx ≠ .command .reset →
    t.phase = .failed ∧ t.err = s.err ∧ t.q = s.q

/-- R72, R73: between commands RESET empties the queue; a CONSTRUCT in IDLE empties it on an error and otherwise only appends
to it; FETCH in READY removes bits from its front; every other command, a CONSTRUCT outside IDLE and a FETCH outside READY
among them, leaves it as it is. -/
def Obligations.QueueChangesOnlyByConstructFetchAndReset : Prop :=
  ∀ (s t : State) (tx : Transaction) (rest : List Transaction) (i : Instr), s.seq = none → s.commands = tx :: rest →
    decodeHost tx = .command i → step s = .next t →
    (i = .reset → t.q = []) ∧
    ((∃ p m b y c body, i = .construct p m b y c body) → s.phase = .idle →
      (t.phase = .failed ∧ t.q = []) ∨ (t.phase = .ready ∧ ∃ bits, t.q = s.q ++ bits)) ∧
    (∀ n, i = .fetch n → s.phase = .ready → t.q = s.q.drop n.toNat) ∧
    (i ≠ .reset → ((∃ p m b y c body, i = .construct p m b y c body) → s.phase ≠ .idle) →
      ((∃ n, i = .fetch n) → s.phase ≠ .ready) → t.q = s.q)

/-- R33: between commands `err` is written only by RESET and by a CONSTRUCT in IDLE, and the phase only by these and FETCH:
FETCH leaves err alone, and READ_STATUS, the pure commands (R80) and a CONSTRUCT outside IDLE (R348) leave phase, err and
queue alone. -/
def Obligations.OtherCommandsKeepPhaseErrorAndQueue : Prop :=
  ∀ (s t : State) (tx : Transaction) (rest : List Transaction) (i : Instr), s.seq = none → s.commands = tx :: rest →
    decodeHost tx = .command i → step s = .next t →
    ((∃ n, i = .fetch n) → t.err = s.err) ∧
    (i = .readStatus ∨ i.isPure = true → t.phase = s.phase ∧ t.err = s.err ∧ t.q = s.q) ∧
    ((∃ p m b y c body, i = .construct p m b y c body) → s.phase ≠ .idle →
      t.phase = s.phase ∧ t.err = s.err ∧ t.q = s.q)

/-- R34, R72: a micro-op never changes a bit already queued: the queue after it starts with the queue before it, unless it
took CapacityError, which discards the batch. -/
def Obligations.MicroOpsOnlyAppend : Prop :=
  ∀ (i : Instr) (s t : State) (sq : Sequencer), i.isMicro = true → s.seq = some sq → exec i s = .next t →
    (∃ bits, t = { s with q := s.q ++ bits }) ∨ t = errorState 5#3 s

/-! ## The output interface -/

/-- R15 with R257 and R284: the numbers a FETCH in READY delivers on the output interface are those SYMBOL_REPR gives the bits
it takes from the front of the queue, NEG's for a 1 and POS's for a 0; under D16's contract a number is positive exactly where
the bit is 0 and negative exactly where it is 1. (That the numbers are rational is the model's choice, log 14.) -/
def Obligations.FetchDeliversTheNumbersOfTheBits : Prop :=
  ∀ (n : Word) (s : State), s.phase = .ready → s.q ≠ [] →
    ∃ a : Response,
      exec (.fetch n) s = .next { s with q := s.q.drop n.toNat, responses := s.responses ++ [a] } ∧
      outputNumbers s.cfg a =
        (s.q.take n.toNat).map (fun b => if b then s.cfg.symbolReprNeg else s.cfg.symbolReprPos) ∧
      (SymbolReprContract s.cfg → ∀ (k : Nat) (b : Bit) (x : Rat), (s.q.take n.toNat)[k]? = some b →
        (outputNumbers s.cfg a)[k]? = some x → (0 < x ↔ b = false) ∧ (x < 0 ↔ b = true))
end

