-- ==== Sys2Proof/Laws/PerInstr.lean ====
section
/-! SUPPORT. Families of statements made per instruction, one lemma per constructor of Instr. -/

namespace Sys2Proof.Laws.EncodedLength

/-- The number of words an instruction's encoding has (R118): one command or micro-op word, then the words its opcode
alone fixes (R111). -/
def Statement (i : Instr) : Prop :=
  (encode i).length = 1 + wordsAfter (((encode i).headD 0#32).extractLsb' 0 8).toNat

theorem reset : Statement .reset := by simp [Statement, encode, wordsAfter]
theorem construct (protocol msgType : BitVec 8) (baudRate symbolRate capcode : Word) (body : Text) :
    Statement (.construct protocol msgType baudRate symbolRate capcode body) := by simp [Statement, encode, wordsAfter]
theorem fetch (maxCount : Word) : Statement (.fetch maxCount) := by simp [Statement, encode, wordsAfter]
theorem readStatus : Statement .readStatus := by simp [Statement, encode, wordsAfter]
theorem addChecksum (w : Word) : Statement (.addChecksum w) := by simp [Statement, encode, wordsAfter]
theorem parity (x : Word) : Statement (.parity x) := by simp [Statement, encode, wordsAfter]
theorem reverse32 (x : Word) : Statement (.reverse32 x) := by simp [Statement, encode, wordsAfter]
theorem fecEncode (x : Word) : Statement (.fecEncode x) := by simp [Statement, encode, wordsAfter]
theorem buildFiw (cycle : BitVec 4) (frame : BitVec 7) (roaming rept : BitVec 1) (t : BitVec 4) :
    Statement (.buildFiw cycle frame roaming rept t) := by simp [Statement, encode, wordsAfter]
theorem buildBiw1 (priority : BitVec 4) (a : BitVec 2) (vectorStart : BitVec 6) (carryOn : BitVec 2) (collapse : BitVec 3) :
    Statement (.buildBiw1 priority a vectorStart carryOn collapse) := by simp [Statement, encode, wordsAfter]
theorem buildSaddr (address : Word) : Statement (.buildSaddr address) := by simp [Statement, encode, wordsAfter]
theorem buildNvw (vectorType : BitVec 3) (messageStart : BitVec 7) (nWords : BitVec 3) (cksum : BitVec 4) :
    Statement (.buildNvw vectorType messageStart nWords cksum) := by simp [Statement, encode, wordsAfter]
theorem buildPaddr (capcode : Word) (func : BitVec 2) : Statement (.buildPaddr capcode func) := by
  simp [Statement, encode, wordsAfter]
theorem qbit (b : Bit) : Statement (.qbit b) := by cases b <;> simp [Statement, encode, fieldAt, wordsAfter]
theorem qword (w : Word) : Statement (.qword w) := by simp [Statement, encode, wordsAfter]
theorem qvec (pid : BitVec 8) : Statement (.qvec pid) := by
  have h : (0x82#32 ||| fieldAt 8 pid).extractLsb' 0 8 = 0x82#8 := by
    ext k hk; interval_cases k <;> simp [fieldAt]
  simp [Statement, encode, h, wordsAfter]

end Sys2Proof.Laws.EncodedLength
end

