-- ==== Sys2Proof/Tests/Slice0.lean ====
section
/-! SUPPORT. Tests. Expected values are the spec's own (95_test_vectors.md and the examples of the rules), never the model's
answer. `witness_` theorems show a state and operands that meet the hypotheses of the statement they are named after. -/

-- The tests are elaborated one after another: waiting side by side for the kernel they would each hold a thread.
set_option Elab.async false

open Sys2Proof Sys2Proof.Machine

namespace Sys2Proof.Tests

/-! ## Helpers -/

/-- The outcome is a next state. -/
def answersNext (o : Host.Outcome State Fault Refusal) : Bool :=
  match o with
  | .next _ => true
  | .fault _ => false
  | .refused _ => false

/-- The last response of the state an outcome answers. -/
def lastResponse (o : Host.Outcome State Fault Refusal) : Option Response :=
  match o with
  | .next t => t.responses.getLast?
  | .fault _ => none
  | .refused _ => none

/-- The phase, error code and queue of the state an outcome answers. -/
def fieldsOf (o : Host.Outcome State Fault Refusal) : Option (Phase × BitVec 3 × List Bit) :=
  match o with
  | .next t => some (t.phase, t.err, t.q)
  | .fault _ => none
  | .refused _ => none

/-- A state in READY with the given queue. -/
def readyWith (q : List Bit) : State := { State.reset with phase := .ready, q := q }

/-- A state inside a CONSTRUCT transition with replication factor `rep` and the given queue. -/
def assembling (rep : Nat) (q : List Bit) : State := { State.reset with q := q, seq := some { rep := rep, prog := [] } }

/-- A state with one transaction waiting. -/
def waiting (words : List Word) : State := { State.reset with commands := [{ words := words, body := [] }] }

/-- A configuration with small test patterns (not FLEX's real ones) and a capacity. -/
def smallConfig (capacity : Fin 4294967296) : Config :=
  { defaultConfig with
    flexBs := [true, false], flexA1 := 0x12345678#32, flexB := [false, true, true], flexCb := [true],
    bodyTable := [((.numeric, []), []), ((.alpha, []), [0x8A3C5B6E#32, 0x9B4D6C7F#32])],
    queueCapacity := capacity }

/-- An idle state with that configuration. -/
def idleWith (capacity : Fin 4294967296) : State := { State.reset with cfg := smallConfig capacity }

/-! ## WellFormed: its one check (R115) -/

theorem test_wf_refuses_reserved_pattern : (Instr.qvec 4#8).wf = false ∧ (Instr.qvec 255#8).wf = false := by decide
theorem test_wf_accepts_patterns : (Instr.qvec 0#8).wf = true ∧ (Instr.qvec 3#8).wf = true := by decide

/-! ## Decoding: words written out from R110 to R115 -/

theorem test_decode_reset : decodeHost ⟨[0x00000001#32], []⟩ = .command .reset := by decide
/-- Program P2 of 95_test_vectors.md. -/
theorem test_decode_construct :
    decodeHost ⟨[0x00000002#32, 0x00000101#32, 0x000004B0#32, 0x00000960#32, 0x0012D687#32], [0x68#8]⟩ =
      .command (.construct 1#8 1#8 1200#32 2400#32 1234567#32 [0x68#8]) := by decide +kernel
theorem test_decode_construct_reserved :
    decodeHost ⟨[0x00000002#32, 0x00010001#32, 0#32, 0#32, 0#32], []⟩ = .refuse .reservedBits := by decide +kernel
theorem test_decode_fetch : decodeHost ⟨[0x00000003#32, 0x000003E8#32], []⟩ = .command (.fetch 1000#32) := by decide
theorem test_decode_read_status : decodeHost ⟨[0x00000004#32], []⟩ = .command .readStatus := by decide
theorem test_decode_primitives :
    decodeHost ⟨[0x00000010#32, 0x00012340#32], []⟩ = .command (.addChecksum 0x00012340#32) ∧
      decodeHost ⟨[0x00000011#32, 0x7CD215D8#32], []⟩ = .command (.parity 0x7CD215D8#32) ∧
      decodeHost ⟨[0x00000012#32, 0x12345678#32], []⟩ = .command (.reverse32 0x12345678#32) ∧
      decodeHost ⟨[0x00000013#32, 0x7CD21000#32], []⟩ = .command (.fecEncode 0x7CD21000#32) := by decide
/-- FIW 3,5,0,1,2, BIW1 1,1,2,0,0 and NVW 3,3,0,5 of program P5. -/
theorem test_decode_builders :
    decodeHost ⟨[0x00000020#32, 0x00050530#32], []⟩ = .command (.buildFiw 3#4 5#7 0#1 1#1 2#4) ∧
      decodeHost ⟨[0x00000021#32, 0x00000910#32], []⟩ = .command (.buildBiw1 1#4 1#2 2#6 0#2 0#3) ∧
      decodeHost ⟨[0x00000022#32, 0x001E0000#32], []⟩ = .command (.buildSaddr 1966080#32) ∧
      decodeHost ⟨[0x00000023#32, 0x000A01B0#32], []⟩ = .command (.buildNvw 3#3 3#7 0#3 5#4) ∧
      decodeHost ⟨[0x00000024#32, 0x00067D69#32, 0x00000003#32], []⟩ = .command (.buildPaddr 425321#32 3#2) := by
  decide +kernel
theorem test_decode_builders_reserved :
    decodeHost ⟨[0x00000020#32, 0x00000001#32], []⟩ = .refuse .reservedBits ∧
      decodeHost ⟨[0x00000020#32, 0x00200000#32], []⟩ = .refuse .reservedBits ∧
      decodeHost ⟨[0x00000024#32, 0x00067D69#32, 0x00000004#32], []⟩ = .refuse .reservedBits := by decide +kernel
theorem test_decode_illegal :
    decodeHost ⟨[0x00000000#32], []⟩ = .refuse .illegalOpcode ∧ decodeHost ⟨[0x00000005#32], []⟩ = .refuse .illegalOpcode ∧
      decodeHost ⟨[0x00000081#32], []⟩ = .refuse .illegalOpcode ∧ decodeHost ⟨[0x00000101#32], []⟩ = .refuse .reservedBits := by
  decide
/-- QBIT 1, QWORD, QVEC FLEX_CB, and a reserved pattern identifier (R114, R115). -/
theorem test_decode_micro :
    decodeMicro [0x00000180#32] = .ok (.qbit true, []) ∧
      decodeMicro [0x00000081#32, 0x7CD215D8#32, 0x00000082#32] = .ok (.qword 0x7CD215D8#32, [0x00000082#32]) ∧
      decodeMicro [0x00000382#32] = .ok (.qvec 3#8, []) ∧ decodeMicro [0x00000482#32] = .error .reservedPattern := by
  decide +kernel
theorem test_encode_words :
    encode (.buildFiw 3#4 5#7 0#1 1#1 2#4) = [0x00000020#32, 0x00050530#32] ∧
      encode (.construct 1#8 0#8 1200#32 2400#32 1234567#32 []) =
        [0x00000002#32, 0x00000001#32, 0x000004B0#32, 0x00000960#32, 0x0012D687#32] ∧
      encode (.qvec 0#8) = [0x00000082#32] := by decide +kernel

/-- Every row of the opcode table decodes, and runs as the first instruction after reset. -/
theorem test_table_rows_run :
    [0x01, 0x02, 0x03, 0x04, 0x10, 0x11, 0x12, 0x13, 0x20, 0x21, 0x22, 0x23, 0x24, 0x80, 0x81, 0x82].all (fun w =>
      (decodeTableWord 32 w).isSome && answersNext (step (State.reset.withFetchWord 32 w))) = true := by decide +kernel

/-! ## Bit primitives (95_test_vectors.md 2.1 to 2.4) -/

theorem test_add_checksum :
    addChecksum 0x00012340#32 = 0x00012345#32 ∧ addChecksum 0x001FFFFF#32 = 0x001FFFF2#32 ∧
      addChecksum 0x80000000#32 = 0x8000000F#32 := by decide +kernel
theorem test_parity : parity 0x80000001#32 = 0#32 ∧ parity 0x00000001#32 = 1#32 := by decide +kernel
theorem test_reverse32 : reverse32 0x12345678#32 = 0x1E6A2C48#32 ∧ reverse32 0x001FFFFF#32 = 0xFFFFF800#32 := by
  decide +kernel
theorem test_fec_default :
    fecEncode defaultConfig 0x7CD21000#32 = 0x7CD215D8#32 ∧ fecEncode defaultConfig 0x80000000#32 = 0x80000769#32 ∧
      fecEncode defaultConfig 0x00000800#32 = 0x00000ED3#32 ∧ fecEncode defaultConfig 0x000007FF#32 = 0x00000000#32 := by
  decide +kernel

/-! ## Builders and pure commands (95_test_vectors.md 2.5, P5) -/

theorem test_build_fiw :
    buildFiw defaultConfig 3#4 5#7 0#1 1#1 2#4 = 0x4CA0A051#32 ∧ buildFiw defaultConfig 15#4 127#7 1#1 1#1 15#4 = 0x4FFFFEC9#32 := by
  decide +kernel
theorem test_build_biw1 : buildBiw1 defaultConfig 1#4 1#2 2#6 0#2 0#3 = 0xA8900557#32 := by decide +kernel
theorem test_build_nvw : buildNvw defaultConfig 3#3 3#7 0#3 5#4 = 0x9D8053C0#32 := by decide +kernel
theorem test_build_saddr :
    lastResponse (exec (.buildSaddr 32769#32) State.reset) = some (.value 0x80010593#32) ∧
      lastResponse (exec (.buildSaddr 1966080#32) State.reset) = some (.value 0x00007842#32) ∧
      lastResponse (exec (.buildSaddr 32768#32) State.reset) = some (.error 2#3) ∧
      lastResponse (exec (.buildSaddr 1966081#32) State.reset) = some (.error 2#3) := by decide +kernel
theorem test_build_paddr :
    lastResponse (exec (.buildPaddr 425321#32 3#2) State.reset) = some (.value 0x19F5BD6D#32) ∧
      lastResponse (exec (.buildPaddr 2097151#32 3#2) State.reset) = some (.value 0x7FFFF896#32) ∧
      lastResponse (exec (.buildPaddr 2097152#32 0#2) State.reset) = some (.error 2#3) := by decide +kernel
/-- A FEC function that is not systematic at addrTemp 0x00002000 (I14). -/
theorem test_build_paddr_inconsistent :
    lastResponse (exec (.buildPaddr 8#32 0#2) { State.reset with cfg := { defaultConfig with fecTable := [(4#21, 0#32)] } }) =
      some (.error 4#3) := by decide +kernel

/-! ## Micro-ops (95_test_vectors.md 2.6) -/

theorem test_qbit : fieldsOf (exec (.qbit true) (assembling 4 [])) = some (.idle, 0#3, [true, true, true, true]) := by
  decide +kernel
/-- The sync word's bits, MSB first. -/
theorem test_qword :
    fieldsOf (exec (.qword 0x7CD215D8#32) (assembling 1 [])) = some (.idle, 0#3,
      [false, true, true, true, true, true, false, false, true, true, false, true, false, false, true, false,
       false, false, false, true, false, true, false, true, true, true, false, true, true, false, false, false]) := by
  decide +kernel
theorem test_qvec :
    fieldsOf (exec (.qvec 2#8) { assembling 2 [] with cfg := { defaultConfig with flexB := [true, false] } }) =
      some (.idle, 0#3, [true, true, false, false]) := by decide +kernel
theorem test_qbit_full :
    fieldsOf (exec (.qbit true) { assembling 1 [false] with cfg := { defaultConfig with queueCapacity := 1 } }) =
      some (.failed, 5#3, []) := by decide +kernel

/-! ## Life cycle (95_test_vectors.md 2.6, 2.7, programs P1, P3, P4) -/

theorem test_reset : fieldsOf (step { waiting [0x00000001#32] with phase := .failed, err := 3#3 }) = some (.idle, 0#3, []) := by
  decide +kernel
theorem test_fetch :
    lastResponse (exec (.fetch 2#32) (readyWith [false, true, true])) = some (.symbols [.pos, .neg]) ∧
      fieldsOf (exec (.fetch 2#32) (readyWith [false, true, true])) = some (.ready, 0#3, [true]) := by decide +kernel
theorem test_fetch_zero_and_eos :
    lastResponse (exec (.fetch 0#32) (readyWith [true])) = some (.symbols []) ∧
      lastResponse (exec (.fetch 2#32) (readyWith [])) = some .eos ∧
      fieldsOf (exec (.fetch 2#32) (readyWith [])) = some (.drained, 0#3, []) ∧
      lastResponse (exec (.fetch 2#32) State.reset) = some (.refused .wrongPhase) := by decide +kernel
theorem test_read_status :
    lastResponse (exec .readStatus { State.reset with phase := .failed, err := 5#3 }) = some (.status 0x00000017#32 0#32) := by
  decide +kernel
/-- Program P3 step 2, the zero-rate decision D11, and the order of checks of 2.7. -/
theorem test_construct_errors :
    fieldsOf (exec (.construct 1#8 1#8 1600#32 6401#32 425321#32 []) State.reset) = some (.failed, 1#3, []) ∧
      fieldsOf (exec (.construct 0#8 5#8 1600#32 6401#32 425321#32 []) State.reset) = some (.failed, 1#3, []) ∧
      fieldsOf (exec (.construct 1#8 2#8 1600#32 3200#32 425321#32 []) State.reset) = some (.failed, 3#3, []) ∧
      fieldsOf (exec (.construct 0#8 0#8 1600#32 3200#32 32768#32 []) State.reset) = some (.failed, 2#3, []) ∧
      fieldsOf (exec (.construct 1#8 0#8 1600#32 3200#32 2097152#32 []) State.reset) = some (.failed, 2#3, []) := by
  decide +kernel
/-- Program P1 with a two-word body: 1120 bits, the preamble's first bits, then the sync word, and the address word in the
third slot. -/
theorem test_construct_pocsag :
    (match exec (.construct 1#8 1#8 1200#32 1200#32 425321#32 []) (idleWith 4294967295) with
      | .next t => decide (t.phase = .ready ∧ t.q.length = 1120 ∧ t.q.take 3 = [true, false, true] ∧
          (t.q.drop 576).take 32 = msbBits 0x7CD215D8#32 ∧ (t.q.drop 672).take 32 = msbBits 0x19F5BD6D#32)
      | .fault _ => false
      | .refused _ => false) = true := by decide +kernel

/-! ## The step -/

/-- The end of a micro-program (R283). -/
theorem test_step_ends_program : fieldsOf (step (assembling 1 [true])) = some (.ready, 0#3, [true]) := by decide +kernel
theorem test_step_micro_op :
    fieldsOf (step { assembling 2 [] with seq := some { rep := 2, prog := [0x00000180#32] } }) = some (.idle, 0#3, [true, true]) := by
  decide +kernel
/-- A command is not a command without its argument word (R111). -/
theorem test_step_malformed : answersNext (step (waiting [0x00000003#32])) = false := by decide +kernel

/-! ## Witnesses -/

theorem idleWith_consistent (capacity : Fin 4294967296) : (idleWith capacity).Consistent := by
  constructor <;> simp [idleWith, State.reset]

theorem readyWith_consistent : (readyWith [false, true]).Consistent := by
  constructor <;> simp [readyWith, State.reset, defaultConfig]

/-- A consistent state in FAILED, a CONSTRUCT having reported RangeError. -/
theorem failed_consistent : ({ State.reset with phase := .failed, err := 2#3 } : State).Consistent := by
  constructor <;> simp [State.reset]

theorem witness_DecodeOfEncodeIsTheInstruction :
    (Instr.fetch 1#32).isMicro = false ∧ (Instr.qvec 3#8).isMicro = true ∧ (Instr.qvec 3#8).wf = true := by decide
theorem witness_HostTransactionIsTheEncodingOfItsCommand :
    decodeHost ⟨[0x00000020#32, 0x00050530#32], []⟩ = .command (.buildFiw 3#4 5#7 0#1 1#1 2#4) := by decide +kernel
theorem witness_MicroWordsAreTheEncodingOfTheirMicroOp : decodeMicro [0x00000082#32] = .ok (.qvec 0#8, []) := by
  decide +kernel
theorem witness_ReservedWordsAndIllegalOpcodesAreRefused :
    (0x00000101#32 : Word).extractLsb' 8 24 ≠ 0#24 ∧ (0x00000082#32 : Word).extractLsb' 8 24 = 0#24 ∧
      ((0x00000082#32 : Word).extractLsb' 0 8).toNat ∉
        [0x01, 0x02, 0x03, 0x04, 0x10, 0x11, 0x12, 0x13, 0x20, 0x21, 0x22, 0x23, 0x24] := by decide
theorem witness_ReservedArgumentBitsAreRefused :
    (0x00010000#32 : Word).extractLsb' 16 16 ≠ 0#16 ∧ (0x00000008#32 : Word).extractLsb' 0 4 ≠ 0#4 ∧
      (0x00200000#32 : Word).extractLsb' 21 11 ≠ 0#11 ∧ (0x00000004#32 : Word).extractLsb' 2 30 ≠ 0#30 := by decide

theorem witness_StepRunsTheDecodedCommand :
    (waiting [0x00000004#32]).seq = none ∧
      (waiting [0x00000004#32]).commands = ⟨[0x00000004#32], []⟩ :: [] ∧
      decodeHost ⟨[0x00000004#32], []⟩ = .command .readStatus := ⟨rfl, rfl, by decide⟩
theorem witness_StepRunsTheDecodedMicroOp :
    ({ State.reset with seq := some { rep := 2, prog := [0x00000081#32, 5#32] } } : State).seq =
        some { rep := 2, prog := [0x00000081#32, 5#32] } ∧
      decodeMicro [0x00000081#32, 5#32] = .ok (.qword 5#32, []) := ⟨rfl, by decide +kernel⟩
theorem witness_StepEndsAFinishedMicroProgram : (assembling 3 []).seq = some { rep := 3, prog := [] } := rfl
theorem witness_StepAnswersARefusedCommand :
    (waiting [0x00000101#32]).seq = none ∧ (waiting [0x00000101#32]).commands = ⟨[0x00000101#32], []⟩ :: [] ∧
      decodeHost ⟨[0x00000101#32], []⟩ = .refuse .reservedBits := ⟨rfl, rfl, by decide⟩
theorem witness_StepWithoutCommandKeepsTheState : State.reset.seq = none ∧ State.reset.commands = [] := ⟨rfl, rfl⟩
theorem witness_StepStopsExactlyOnMalformedTransactions :
    (waiting [0x00000003#32]).seq = none ∧ (waiting [0x00000003#32]).commands = ⟨[0x00000003#32], []⟩ :: [] ∧
      decodeHost ⟨[0x00000003#32], []⟩ = .malformed := ⟨rfl, rfl, by decide⟩
theorem witness_StateAfterResetHasTheStatedValues :
    answersNext (exec .reset { State.reset with phase := .failed, err := 3#3 }) = true := by decide +kernel
theorem witness_ReadStatusReportsPhaseErrorAndLength :
    (readyWith [false, true]).Bounded ∧ (readyWith [false, true]).phase = .ready ∧
      ({ State.reset with phase := .failed, err := 2#3 } : State).Consistent :=
  ⟨readyWith_consistent.bounded, rfl, failed_consistent⟩
theorem witness_FetchDeliversFromTheFront :
    (readyWith [true]).phase = .ready ∧ (readyWith [true]).q ≠ [] ∧ (readyWith []).q = [] ∧
      ({ State.reset with phase := .drained } : State).phase = .drained ∧ State.reset.phase = .idle := by decide
theorem witness_FetchChunkingIsInvariant :
    (readyWith [true, false]).phase = .ready ∧
      (readyWith [true, false]).q.length ≤ ([1#32, 2#32].map BitVec.toNat).sum := by decide
theorem witness_AddChecksumIsIdempotent :
    (0x00012345#32 : Word).extractLsb' 4 28 = (0x0001234F#32 : Word).extractLsb' 4 28 := by decide
theorem witness_Reverse32ReversesTheBits : (0x001FFFFF#32 : Word).extractLsb' 21 11 = 0#11 := by decide
theorem witness_FecEncodeReadsOnlyTheDataBits :
    (0x7CD215D8#32 : Word).extractLsb' 11 21 = (0x7CD21000#32 : Word).extractLsb' 11 21 := by decide
theorem witness_DefaultFecMeetsTheContract : defaultConfig.fecTable = [] := rfl
theorem witness_DefaultFecNeverFailsTheAddressCheck :
    State.reset.cfg.fecTable = [] ∧ (2097151#32 : Word).toNat ≤ 2097151 := by decide
theorem witness_BuildSaddrChecksItsRange :
    (32769 ≤ (32769#32 : Word).toNat ∧ (32769#32 : Word).toNat ≤ 1966080) ∧ (32768#32 : Word).toNat < 32769 ∧
      1966080 < (1966081#32 : Word).toNat := by decide
theorem witness_BuildPaddrChecksRangeThenConsistency :
    2097151 < (2097152#32 : Word).toNat ∧ (2097151#32 : Word).toNat ≤ 2097151 := by decide
theorem witness_FlexWordsAreRecoverable : ∃ cfg, FecSystematic cfg := by
  obtain ⟨table, h⟩ := fecParam_reaches_every_function defaultConfig fun d => d.setWidth 32 <<< 11
  refine ⟨{ defaultConfig with fecTable := table }, fun d => ?_⟩
  rw [h]
  ext k hk
  simp only [BitVec.getElem_extractLsb', BitVec.getLsbD_shiftLeft, BitVec.getLsbD_setWidth]
  have h1 : 11 + k < 32 := by omega
  have h2 : 11 + k - 11 = k := by omega
  have h3 : k < 32 := by omega
  simp [h1, h2, h3, hk]
theorem witness_FlexWordsAreRecoverable_address : ∃ v, buildSaddr defaultConfig 32769#32 = .ok v :=
  ⟨_, if_pos (by decide)⟩
theorem witness_PureCommandsWriteNoState : (Instr.buildPaddr 8#32 0#2).isPure = true := rfl

theorem witness_QbitAppendsRCopies :
    (assembling 4 []).seq = some { rep := 4, prog := [] } ∧
      (assembling 4 []).q.length + 4 ≤ (assembling 4 []).cfg.queueCapacity.val := by decide
theorem witness_QbitAppendsRCopies_full :
    ({ assembling 1 [true] with cfg := smallConfig 1 } : State).cfg.queueCapacity.val <
      ({ assembling 1 [true] with cfg := smallConfig 1 } : State).q.length + 1 := by decide
theorem witness_QwordAppendsMsbFirst :
    (assembling 4 []).q.length + 32 * 4 ≤ (assembling 4 []).cfg.queueCapacity.val ∧
      ({ assembling 1 [] with cfg := smallConfig 31 } : State).cfg.queueCapacity.val <
        ({ assembling 1 [] with cfg := smallConfig 31 } : State).q.length + 32 * 1 := by decide
theorem witness_QvecAppendsItsPattern :
    (2#8 : BitVec 8) = 2#8 ∧ (smallConfig 100).flexB = [false, true, true] ∧
      ({ assembling 2 [] with cfg := smallConfig 6 } : State).q.length + [false, true, true].length * 2 ≤
        ({ assembling 2 [] with cfg := smallConfig 6 } : State).cfg.queueCapacity.val ∧
      ({ assembling 2 [] with cfg := smallConfig 5 } : State).cfg.queueCapacity.val <
        ({ assembling 2 [] with cfg := smallConfig 5 } : State).q.length + [false, true, true].length * 2 := by decide
theorem witness_QvecStopsOnReservedPatterns :
    (assembling 1 []).seq = some { rep := 1, prog := [] } ∧ 4 ≤ (4#8 : BitVec 8).toNat := by decide
theorem witness_WordsAndPatternsAreSequencesOfBits :
    (assembling 4 []).q.length + 32 * 4 ≤ (assembling 4 []).cfg.queueCapacity.val ∧
      pattern (smallConfig 100) 3#8 = some [true] ∧
      ({ assembling 2 [] with cfg := smallConfig 100 } : State).q.length + [true].length * 2 ≤
        ({ assembling 2 [] with cfg := smallConfig 100 } : State).cfg.queueCapacity.val := by decide
theorem witness_MicroOpsAreRefusedOutsideConstruct : (Instr.qbit true).isMicro = true ∧ State.reset.seq = none := ⟨rfl, rfl⟩

theorem witness_ConstructIsRefusedOutsideIdle : (readyWith []).phase ≠ .idle := by decide
theorem witness_ConstructReportsItsFirstError_codes :
    State.reset.phase = .idle ∧ 2 ≤ (2#8 : BitVec 8).toNat ∧ (6401#32 : Word).toNat % (1600#32 : Word).toNat ≠ 0 ∧
      ¬ ((1600#32 : Word) = 0#32 ∨ (3200#32 : Word) = 0#32 ∨ (3200#32 : Word).toNat % (1600#32 : Word).toNat ≠ 0) := by decide
theorem witness_ConstructReportsItsFirstError_address :
    (1#8 : BitVec 8).toNat < 2 ∧ (32768#32 : Word).toNat + State.reset.cfg.flexAddrOffset < 32769 ∧
      1966080 < (1966081#32 : Word).toNat + State.reset.cfg.flexAddrOffset ∧ 2097151 < (2097152#32 : Word).toNat := by decide
theorem witness_ConstructReportsItsFirstError_consistency :
    ∀ func : BitVec 2, func = (if (0#8 : BitVec 8) = 0#8 then (0#2 : BitVec 2) else 3#2) →
      buildPaddr { defaultConfig with fecTable := [(4#21, 0#32)] } 8#32 func = .error .internalConsistency := by
  intro func h
  subst h
  exact if_neg (by decide) |>.trans (if_neg (by decide +kernel))
theorem witness_FlexConstructBuildsTenFrames :
    (idleWith 4294967295).Consistent ∧ (0#8 : BitVec 8).toNat < 2 ∧ (3200#32 : Word).toNat = 2 * (1600#32 : Word).toNat ∧
      32769 ≤ (32769#32 : Word).toNat + (idleWith 4294967295).cfg.flexAddrOffset ∧
      (32769#32 : Word).toNat + (idleWith 4294967295).cfg.flexAddrOffset ≤ 1966080 ∧
      2 * (10 * (45 * 2 + 3 + 1 + 1504)) ≤ (idleWith 4294967295).cfg.queueCapacity.val ∧
      (idleWith 10000).Consistent ∧ (idleWith 10000).cfg.queueCapacity.val < 2 * (10 * (45 * 2 + 3 + 1 + 1504)) :=
  ⟨idleWith_consistent _, by decide, by decide, by decide, by decide, by decide, idleWith_consistent _, by decide⟩
theorem witness_PocsagConstructBuildsItsGroups :
    (idleWith 4294967295).Consistent ∧ (2400#32 : Word).toNat = 2 * (1200#32 : Word).toNat ∧
      buildPaddr (idleWith 4294967295).cfg 425321#32 (pocsagFunc (idleWith 4294967295).cfg .alpha) = .ok 0x19F5BD6D#32 ∧
      2 * (576 + 544 * 1) ≤ (idleWith 4294967295).cfg.queueCapacity.val ∧
      (idleWith 100).cfg.queueCapacity.val < 2 * (576 + 544 * 1) :=
  ⟨idleWith_consistent _, by decide, (if_neg (by decide)).trans ((if_pos (by decide +kernel)).trans (congrArg _ (by decide +kernel))),
    by decide, by decide⟩
/-- Frame offset 7 and three body words: two groups. -/
theorem witness_PocsagConstructBuildsItsGroups_two :
    buildPaddr (idleWith 4294967295).cfg 425327#32 (pocsagFunc (idleWith 4294967295).cfg .alpha) = .ok 0x19F5BD6D#32 ∧
      (425327#32 : Word).toNat % 8 = 7 ∧
      15 - 2 * 7 < (bodyEncoder (idleWith 4294967295).cfg .alpha [] ++ [(idleWith 4294967295).cfg.pocsagIdle]).length :=
  ⟨(if_neg (by decide)).trans ((if_pos (by decide +kernel)).trans (congrArg _ (by decide +kernel))), by decide, by decide⟩
theorem witness_ConstructIsTheSequencerRunToCompletion :
    checkArguments 1#8 1#8 1200#32 2400#32 = .ok (.pocsag, .alpha, 2) ∧
      ∃ ops, batchProgram (idleWith 100).cfg .pocsag 425321#32 .alpha [] = .ok ops := by
  refine ⟨rfl, ?_⟩
  have h : buildPaddr (idleWith 100).cfg 425321#32 (pocsagFunc (idleWith 100).cfg .alpha) = .ok 0x19F5BD6D#32 :=
    (if_neg (by decide)).trans ((if_pos (by decide +kernel)).trans (congrArg _ (by decide +kernel)))
  exact ⟨_, by rw [batchProgram, pocsagBatch, h]⟩
theorem exists_batch {cfg : Config} {p : Protocol} {capcode : Word} {mt : MsgType} {body : Text} {n : Nat}
    (h : (batchProgram cfg p capcode mt body).toOption.map (fun ops => (programBits cfg ops).length) = some n) :
    ∃ ops, batchProgram cfg p capcode mt body = .ok ops ∧ (programBits cfg ops).length = n := by
  cases hb : batchProgram cfg p capcode mt body with
  | error e => simp [hb, Except.toOption] at h
  | ok ops => exact ⟨ops, rfl, by simpa [hb, Except.toOption] using h⟩
/-- The batch fits: 1120 logical bits, twice. -/
theorem witness_ConstructIsAllOrNothing :
    (idleWith 2240).Consistent ∧ (idleWith 2240).phase = .idle ∧
      checkArguments 1#8 1#8 1200#32 2400#32 = .ok (.pocsag, .alpha, 2) ∧
      ∃ ops, batchProgram (idleWith 2240).cfg .pocsag 425321#32 .alpha [] = .ok ops ∧
        2 * (programBits (idleWith 2240).cfg ops).length ≤ (idleWith 2240).cfg.queueCapacity.val := by
  obtain ⟨ops, h1, h2⟩ := exists_batch (cfg := (idleWith 2240).cfg) (p := .pocsag) (capcode := 425321#32) (mt := .alpha)
    (body := []) (n := 1120) (by decide +kernel)
  exact ⟨idleWith_consistent _, rfl, rfl, ops, h1, by rw [h2]; decide⟩
/-- One bit less of capacity. -/
theorem witness_ConstructIsAllOrNothing_full :
    (idleWith 2239).Consistent ∧ (idleWith 2239).phase = .idle ∧
      ∃ ops, batchProgram (idleWith 2239).cfg .pocsag 425321#32 .alpha [] = .ok ops ∧
        (idleWith 2239).cfg.queueCapacity.val < 2 * (programBits (idleWith 2239).cfg ops).length := by
  obtain ⟨ops, h1, h2⟩ := exists_batch (cfg := (idleWith 2239).cfg) (p := .pocsag) (capcode := 425321#32) (mt := .alpha)
    (body := []) (n := 1120) (by decide +kernel)
  exact ⟨idleWith_consistent _, rfl, ops, h1, by rw [h2]; decide⟩
/-- Protocol code 2 fails the first check. -/
theorem witness_ConstructIsAllOrNothing_error (p : Protocol) (mt : MsgType) (rep : Nat) :
    checkArguments 2#8 1#8 1200#32 2400#32 ≠ .ok (p, mt, rep) := fun h => nomatch h
theorem witness_SuccessfulConstructQueuesAtLeastOneGroup :
    ∃ t, exec (.construct 1#8 1#8 1200#32 1200#32 425321#32 []) (idleWith 4294967295) = .next t ∧ t.phase = .ready := by
  have h : ∀ o, (fieldsOf o).map (·.1) = some Phase.ready → ∃ t, o = .next t ∧ t.phase = .ready := by
    intro o ho
    cases o with
    | next t => exact ⟨t, rfl, by simpa [fieldsOf] using ho⟩
    | fault r => simp [fieldsOf] at ho
    | refused r => simp [fieldsOf] at ho
  exact h _ (by decide +kernel)
theorem witness_ConstructAfterResetForgetsThePast :
    (readyWith [true]).cfg = State.reset.cfg ∧ (readyWith [true]).seq = none ∧ State.reset.seq = none := ⟨rfl, rfl, rfl⟩
theorem witness_StepKeepsConsistency : ∃ t, State.reset.Consistent ∧ step State.reset = .next t :=
  ⟨State.reset, by constructor <;> simp [State.reset], rfl⟩
theorem witness_StepKeepsTheQueueWithinCapacity :
    (assembling 1 [true]).Bounded ∧ answersNext (step (assembling 1 [true])) = true :=
  ⟨by simp [State.Bounded, assembling, State.reset, defaultConfig], by decide +kernel⟩
theorem witness_StepNeverWritesTheConfiguration : answersNext (step (waiting [0x00000001#32])) = true := by decide +kernel
theorem witness_EveryCommandGetsExactlyOneResponse :
    (waiting [0x00000101#32]).seq = none ∧ decodeHost ⟨[0x00000101#32], []⟩ ≠ .malformed := ⟨rfl, by decide⟩
/-- RESET out of FAILED, FETCH in READY on an empty queue, and a command that keeps the phase. -/
theorem witness_PhaseChangesOnlyAsListed :
    decodeHost ⟨[0x00000001#32], []⟩ = .command .reset ∧
      fieldsOf (step { waiting [0x00000001#32] with phase := .failed, err := 2#3 }) = some (.idle, 0#3, []) ∧
      decodeHost ⟨[0x00000003#32, 1#32], []⟩ = .command (.fetch 1#32) ∧
      fieldsOf (step { waiting [0x00000003#32, 1#32] with phase := .ready }) = some (.drained, 0#3, []) ∧
      fieldsOf (step { waiting [0x00000003#32, 1#32] with phase := .ready, q := [true, false] }) = some (.ready, 0#3, [false]) :=
  ⟨by decide, by decide +kernel, by decide, by decide +kernel, by decide +kernel⟩
/-- A CONSTRUCT in IDLE: to READY, and, its arguments all 0, to FAILED. -/
theorem witness_PhaseChangesOnlyAsListed_construct :
    decodeHost ⟨[0x00000002#32, 0x00000101#32, 0x000004B0#32, 0x000004B0#32, 0x00067D69#32], []⟩ =
        .command (.construct 1#8 1#8 1200#32 1200#32 425321#32 []) ∧
      (fieldsOf (step { waiting [0x00000002#32, 0x00000101#32, 0x000004B0#32, 0x000004B0#32, 0x00067D69#32] with
        cfg := smallConfig 1120 })).map (fun r => (r.1, r.2.1)) = some (.ready, 0#3) ∧
      fieldsOf (step (waiting [0x00000002#32, 0#32, 0#32, 0#32, 0#32])) = some (.failed, 1#3, []) :=
  ⟨by decide +kernel, by decide +kernel, by decide +kernel⟩
theorem witness_FailedIsLeftOnlyByReset :
    ({ waiting [0x00000004#32] with phase := .failed, err := 2#3 } : State).phase = .failed ∧
      answersNext (step { waiting [0x00000004#32] with phase := .failed, err := 2#3 }) = true ∧
      decodeHost ⟨[0x00000004#32], []⟩ ≠ .command .reset := ⟨rfl, by decide +kernel, by decide⟩
theorem witness_QueueChangesOnlyByConstructFetchAndReset :
    decodeHost ⟨[0x00000001#32], []⟩ = .command .reset ∧
      fieldsOf (step { waiting [0x00000001#32] with phase := .ready, q := [true] }) = some (.idle, 0#3, []) ∧
      decodeHost ⟨[0x00000003#32, 1#32], []⟩ = .command (.fetch 1#32) ∧
      fieldsOf (step { waiting [0x00000003#32, 1#32] with phase := .ready, q := [true, false] }) = some (.ready, 0#3, [false]) ∧
      decodeHost ⟨[0x00000004#32], []⟩ = .command .readStatus ∧ Instr.readStatus ≠ .reset ∧
      fieldsOf (step { waiting [0x00000004#32] with phase := .ready, q := [true] }) = some (.ready, 0#3, [true]) :=
  ⟨by decide, by decide +kernel, by decide, by decide +kernel, by decide, by decide, by decide +kernel⟩
/-- A CONSTRUCT in IDLE (its arguments all 0, so its rates are refused), and one in READY. -/
theorem witness_QueueChangesOnlyByConstructFetchAndReset_construct :
    decodeHost ⟨[0x00000002#32, 0#32, 0#32, 0#32, 0#32], []⟩ = .command (.construct 0#8 0#8 0#32 0#32 0#32 []) ∧
      fieldsOf (step (waiting [0x00000002#32, 0#32, 0#32, 0#32, 0#32])) = some (.failed, 1#3, []) ∧
      fieldsOf (step { waiting [0x00000002#32, 0#32, 0#32, 0#32, 0#32] with phase := .ready, q := [true] }) =
        some (.ready, 0#3, [true]) := ⟨by decide +kernel, by decide +kernel, by decide +kernel⟩
theorem witness_OtherCommandsKeepPhaseErrorAndQueue :
    decodeHost ⟨[0x00000012#32, 1#32], []⟩ = .command (.reverse32 1#32) ∧
      answersNext (step (waiting [0x00000012#32, 1#32])) = true ∧
      decodeHost ⟨[0x00000003#32, 1#32], []⟩ = .command (.fetch 1#32) ∧
      answersNext (step (waiting [0x00000003#32, 1#32])) = true ∧
      decodeHost ⟨[0x00000002#32, 0#32, 0#32, 0#32, 0#32], []⟩ = .command (.construct 0#8 0#8 0#32 0#32 0#32 []) ∧
      answersNext (step { waiting [0x00000002#32, 0#32, 0#32, 0#32, 0#32] with phase := .drained }) = true :=
  ⟨by decide, by decide +kernel, by decide, by decide +kernel, by decide +kernel, by decide +kernel⟩
theorem witness_MicroOpsOnlyAppend :
    (Instr.qbit true).isMicro = true ∧ (assembling 2 []).seq = some { rep := 2, prog := [] } ∧
      answersNext (exec (.qbit true) (assembling 2 [])) = true := ⟨rfl, rfl, by decide +kernel⟩

/-! ## The output interface (R15, R257) -/

/-- A READY state whose symbols are represented as +3/2 and -3/2. -/
def numericWith (q : List Bit) : State :=
  { readyWith q with cfg := { defaultConfig with symbolReprPos := 3 / 2, symbolReprNeg := -3 / 2 } }

/-- Bit 0 is POS and positive, bit 1 is NEG and negative. -/
theorem test_fetch_numbers :
    (lastResponse (exec (.fetch 2#32) (numericWith [false, true, true]))).map (outputNumbers (numericWith []).cfg) =
      some [3 / 2, -3 / 2] := by decide +kernel
theorem witness_FetchDeliversTheNumbersOfTheBits :
    (numericWith [false, true]).phase = .ready ∧ (numericWith [false, true]).q ≠ [] ∧
      SymbolReprContract (numericWith [false, true]).cfg ∧
      ((numericWith [false, true]).q.take (2#32 : Word).toNat)[1]? = some true :=
  ⟨rfl, by decide, ⟨by decide +kernel, by decide +kernel⟩, by decide⟩

end Sys2Proof.Tests
end

section
/-! Proofs about the output interface: what a FETCH delivers in READY, and the signs of the numbers it delivers. -/

namespace Sys2Proof.Machine

/-- FETCH in READY with bits queued: the one case of `execFetch_cases` that drains (R284). -/
theorem exec_fetch_of_ready {s : State} (n : Word) (hp : s.phase = .ready) (hq : s.q ≠ []) :
    exec (.fetch n) s = .next (respond (.symbols (drained n.toNat s)) (drain n.toNat s)) := by
  rcases execFetch_cases n s with ⟨-, -, h⟩ | ⟨-, hempty, -⟩ | ⟨hp', -⟩ | ⟨hp', -⟩
  · exact h
  · exact absurd hempty hq
  · simp [hp] at hp'
  · simp [hp] at hp'

/-- The numbers of drained symbols are SYMBOL_REPR's for the bits they were (R15, R257). -/
theorem outputNumbers_drained (cfg : Config) (n : Nat) (s : State) :
    outputNumbers cfg (.symbols (drained n s)) = (s.q.take n).map (symbolRepr cfg ∘ sym) := by
  rw [outputNumbers_symbols, drained, List.map_map]

/-- D16 keeps the sign of a queue bit's number exact: bit 0 positive, bit 1 negative. -/
theorem symbolRepr_sym_sign {cfg : Config} (h : SymbolReprContract cfg) (b : Bit) :
    (0 < symbolRepr cfg (sym b) ↔ b = false) ∧ (symbolRepr cfg (sym b) < 0 ↔ b = true) := by
  cases b with
  | false => exact ⟨iff_of_true h.pos rfl, iff_of_false (not_lt_of_gt h.pos) (by decide)⟩
  | true => exact ⟨iff_of_false (not_lt_of_gt h.neg) (by decide), iff_of_true h.neg rfl⟩

/-- Settles O58: the response is the drained symbols, and each of its numbers is that of the bit at the same place. -/
theorem fetchDeliversTheNumbersOfTheBits : Obligations.FetchDeliversTheNumbersOfTheBits := by
  intro n s hp hq
  refine ⟨.symbols (drained n.toNat s), exec_fetch_of_ready n hp hq, ?_, ?_⟩
  · rw [outputNumbers_drained, symbolRepr_comp_sym]
  · intro hsign k b x hbit hnumber
    have hx : symbolRepr s.cfg (sym b) = x := by
      simpa only [outputNumbers_drained, List.getElem?_map, hbit, Option.map_some, Option.some.injEq,
        Function.comp_apply] using hnumber
    exact hx ▸ symbolRepr_sym_sign hsign b

end Sys2Proof.Machine
end

section
/-! What a step inside a CONSTRUCT transition can do, said once: the counterpart of `step_between_commands`, and the statements
about single micro-ops. -/

namespace Sys2Proof.Machine

/-! ## Where a step takes its instruction from -/

theorem step_of_seq {s : State} {sq : Sequencer} (h : s.seq = some sq) : step s = sequencerStep sq s := by
  simp [step, fetchAndRun, h]

theorem step_of_decodeHost {s : State} {tx : Transaction} {rest : List Transaction} {i : Instr} (hs : s.seq = none)
    (hc : s.commands = tx :: rest) (hd : decodeHost tx = .command i) : step s = exec i { s with commands := rest } := by
  simp [step, fetchAndRun, hs, commandStep, hc, hd]

/-- With no transition in progress and nothing at the command port the block keeps its state (R328). -/
theorem step_of_idle {s : State} (hs : s.seq = none) (hc : s.commands = []) : step s = .next s := by
  simp [step, fetchAndRun, hs, commandStep, hc]

/-! ## Micro-ops -/

/-- The sequencer's decoder yields micro-ops only (R114, R254). -/
theorem decodeMicro_isMicro {words rest : List Word} {i : Instr} (h : decodeMicro words = .ok (i, rest)) :
    i.isMicro = true := by
  unfold decodeMicro at h
  repeat' split at h
  all_goals cases h
  all_goals rfl

theorem runMicro_eq_exec {i : Instr} (hm : i.isMicro = true) (s : State) : runMicro i s = exec i s := by
  cases i <;> simp [Instr.isMicro] at hm <;> rfl

/-- Inside a transition a micro-op that answers a next state has appended its logical bits (R251 to R253, R255). -/
theorem exec_micro_appends {i : Instr} {s t : State} {sq : Sequencer} (hm : i.isMicro = true) (hs : s.seq = some sq)
    (h : exec i s = .next t) : t = appendBits sq.rep (microBits s.cfg i) s := by
  cases i <;> simp [Instr.isMicro] at hm
  case qbit b => simpa [exec, execQbit, hs, microBits] using h.symm
  case qword w => simpa [exec, execQword, hs, microBits] using h.symm
  case qvec pid =>
    cases hp : pattern s.cfg pid with
    | some bits => simpa [exec, execQvec, hs, hp, microBits] using h.symm
    | none => simp [exec, execQvec, hs, hp] at h

section Append
variable (rep : Nat) (bits : List Bit) (s : State)

@[simp] theorem appendBits_cfg : (appendBits rep bits s).cfg = s.cfg := by
  rcases appendBits_cases rep bits s with ⟨-, h⟩ | ⟨-, h⟩ <;> simp [h]

@[simp] theorem appendBits_commands : (appendBits rep bits s).commands = s.commands := by
  rcases appendBits_cases rep bits s with ⟨-, h⟩ | ⟨-, h⟩ <;> simp [h]

/-- An append is checked against the capacity, so it leaves the queue within it whatever it was before (R256). -/
theorem appendBits_bounded : (appendBits rep bits s).Bounded := by
  rcases appendBits_cases rep bits s with ⟨hroom, h⟩ | ⟨-, h⟩
  · simpa [h, State.Bounded] using hroom
  · simp [h, State.Bounded]

end Append

/-! ## The sequencer's steps -/

theorem sequencerStep_nil (rep : Nat) (s : State) :
    sequencerStep { rep := rep, prog := [] } s = .next (finishConstruct s) := rfl

/-- The sequencer runs the micro-op it decodes, and has moved past its words (R31, R114). -/
theorem sequencerStep_of_decodeMicro {rep : Nat} {prog rest : List Word} {i : Instr} (s : State)
    (hd : decodeMicro prog = .ok (i, rest)) :
    sequencerStep { rep := rep, prog := prog } s = exec i (startProgram rep rest s) := by
  rw [← runMicro_eq_exec (decodeMicro_isMicro hd)]
  cases prog with
  | nil => cases hd
  | cons c cs => simp only [sequencerStep, hd, startProgram]

theorem sequencerStep_of_badMicroOp {rep : Nat} {c : Word} {cs : List Word} {why : MicroReject} (s : State)
    (hd : decodeMicro (c :: cs) = .error why) :
    sequencerStep { rep := rep, prog := c :: cs } s = .refused (.badMicroOp why) := by
  simp only [sequencerStep, hd]

/-- What a step inside a CONSTRUCT transition can leave: the transition ended with success, or one append, the sequencer moved
on before it (R31, R283). -/
inductive SequencerResult (s : State) : State → Prop where
  | finished : SequencerResult s (finishConstruct s)
  | appended (rep : Nat) (rest : List Word) (bits : List Bit) :
      SequencerResult s (appendBits rep bits (startProgram rep rest s))

/-- Every sequencer step that answers a next state answers one of `SequencerResult`. -/
theorem sequencerStep_cases {sq : Sequencer} {s t : State} (h : sequencerStep sq s = .next t) : SequencerResult s t := by
  obtain ⟨rep, prog⟩ := sq
  cases prog with
  | nil =>
    cases h
    exact .finished
  | cons c cs =>
    cases hd : decodeMicro (c :: cs) with
    | error why =>
      rw [sequencerStep_of_badMicroOp s hd] at h
      cases h
    | ok r =>
      rw [sequencerStep_of_decodeMicro s hd] at h
      rw [exec_micro_appends (decodeMicro_isMicro hd) (startProgram_seq rep r.2 s) h]
      exact .appended rep r.2 _

/-- Everything a step that answers a next state can do: nothing, with no command waiting; one host command; or one step of the
sequencer. -/
theorem step_cases {s t : State} (h : step s = .next t) :
    t = s ∨ (s.seq = none ∧ ∃ rest, CommandResult { s with commands := rest } t) ∨
      (s.seq ≠ none ∧ SequencerResult s t) := by
  by_cases hs : s.seq = none
  · rcases step_between_commands s hs with ⟨-, hkeep⟩ | ⟨-, -, -, -, hstop⟩ | ⟨-, rest, t', -, hnext, hres⟩
    · exact .inl (Host.Outcome.next.inj (h.symm.trans hkeep))
    · cases h.symm.trans hstop
    · obtain rfl := Host.Outcome.next.inj (h.symm.trans hnext)
      exact .inr (.inl ⟨hs, rest, hres⟩)
  · obtain ⟨sq, hsq⟩ := Option.ne_none_iff_exists'.mp hs
    rw [step_of_seq hsq] at h
    exact .inr (.inr ⟨hs, sequencerStep_cases h⟩)

/-! ## Statements -/

/-- Settles O8: the step takes the sequencer's branch, whose decoded micro-op is exec's. -/
theorem stepRunsTheDecodedMicroOp : Obligations.StepRunsTheDecodedMicroOp := by
  intro s sq i rest hs hd
  rw [step_of_seq hs]
  exact sequencerStep_of_decodeMicro s hd

/-- Settles O9: an empty micro-program is the sequencer's success. -/
theorem stepEndsAFinishedMicroProgram : Obligations.StepEndsAFinishedMicroProgram := by
  intro s rep hs
  rw [step_of_seq hs, sequencerStep_nil]
  rfl

/-- Settles O57: a micro-op is one append, and an append adds at the back or is CapacityError's error entry. -/
theorem microOpsOnlyAppend : Obligations.MicroOpsOnlyAppend := by
  intro i s t sq hm hs h
  rw [exec_micro_appends hm hs h]
  rcases appendBits_cases sq.rep (microBits s.cfg i) s with ⟨-, hroom⟩ | ⟨-, hfull⟩
  · exact .inl ⟨_, hroom⟩
  · exact .inr (hfull.trans (enterError_eq_errorState .capacity s))

end Sys2Proof.Machine
end

section
/-! What every step keeps: the configuration, the queue within its capacity, and consistency. One lemma for each kind of result
(`CommandResult`, `SequencerResult`), and the statement about steps from them by `step_cases`. -/

namespace Sys2Proof.Machine

/-! ## The configuration (R39, R344) -/

theorem CommandResult.cfg_eq {s t : State} (h : CommandResult s t) : t.cfg = s.cfg := by
  cases h <;> rfl

theorem SequencerResult.cfg_eq {s t : State} (h : SequencerResult s t) : t.cfg = s.cfg := by
  cases h with
  | finished => rfl
  | appended rep rest bits => simp

/-- Settles O51: no kind of step writes the configuration. -/
theorem stepNeverWritesTheConfiguration : Obligations.StepNeverWritesTheConfiguration := by
  intro s t h
  rcases step_cases h with rfl | ⟨-, rest, hres⟩ | ⟨-, hres⟩
  · rfl
  · exact hres.cfg_eq
  · exact hres.cfg_eq

/-! ## The capacity (R34, R81) -/

theorem State.Bounded.drain {s : State} (hb : s.Bounded) (n : Nat) : (drain n s).Bounded := by
  have hdrop : (s.q.drop n).length ≤ s.q.length := by simp
  exact hdrop.trans hb

theorem CommandResult.bounded {s t : State} (h : CommandResult s t) (hb : s.Bounded) : t.Bounded := by
  cases h with
  | answered a => exact hb
  | reset => simp [State.Bounded]
  | failed e hp => simp [State.Bounded]
  | built bits hp hroom => simpa [State.Bounded] using hroom hb
  | fetched n hp => exact hb.drain n
  | exhausted hp hq => exact hb

theorem SequencerResult.bounded {s t : State} (h : SequencerResult s t) (hb : s.Bounded) : t.Bounded := by
  cases h with
  | finished => exact hb
  | appended rep rest bits => exact appendBits_bounded rep bits _

/-- Settles O50: a host command and a micro-op each keep the bound. -/
theorem stepKeepsTheQueueWithinCapacity : Obligations.StepKeepsTheQueueWithinCapacity := by
  intro s t hb h
  rcases step_cases h with rfl | ⟨-, rest, hres⟩ | ⟨-, hres⟩
  · exact hb
  · exact hres.bounded hb
  · exact hres.bounded hb

/-! ## Consistency -/

theorem ErrorClass.code_ne_zero (e : ErrorClass) : e.code ≠ 0#3 := by
  cases e <;> decide

theorem ErrorClass.code_le_five (e : ErrorClass) : e.code.toNat ≤ 5 := by
  cases e <;> decide

/-- Consistency does not look at the waiting commands. -/
theorem State.Consistent.with_commands {s : State} (h : s.Consistent) (rest : List Transaction) :
    ({ s with commands := rest } : State).Consistent :=
  ⟨h.bounded, h.readyOnly, h.failedError, h.knownError, h.boundary⟩

/-- Nor at the responses. -/
theorem State.Consistent.respond {s : State} (h : s.Consistent) (r : Response) : (respond r s).Consistent :=
  ⟨h.bounded, h.readyOnly, h.failedError, h.knownError, h.boundary⟩

/-- Settles O48: each field of the reset state meets its condition by itself. -/
theorem resetStateIsConsistent : Obligations.ResetStateIsConsistent where
  bounded := Nat.zero_le _
  readyOnly _ := rfl
  failedError := iff_of_true rfl (by decide)
  knownError := Nat.zero_le _
  boundary := rfl

theorem resetFields_consistent {s : State} (hs : s.seq = none) : (resetFields s).Consistent where
  bounded := Nat.zero_le _
  readyOnly _ := rfl
  failedError := iff_of_true rfl (by simp)
  knownError := Nat.zero_le _
  boundary := hs

/-- Error entry leaves a consistent state whatever it happens in (R318). -/
theorem enterError_consistent (e : ErrorClass) (s : State) : (enterError e s).Consistent where
  bounded := Nat.zero_le _
  readyOnly _ := rfl
  failedError := iff_of_false e.code_ne_zero (by simp)
  knownError := e.code_le_five
  boundary := rfl

theorem finishConstruct_consistent {s : State} (hb : s.Bounded) : (finishConstruct s).Consistent where
  bounded := hb
  readyOnly hp := absurd rfl hp
  failedError := iff_of_true rfl (by simp)
  knownError := Nat.zero_le _
  boundary := rfl

theorem State.Consistent.drain {s : State} (h : s.Consistent) (n : Nat) : (drain n s).Consistent where
  bounded := State.Bounded.drain h.bounded n
  readyOnly hp := by simp [h.readyOnly hp]
  failedError := h.failedError
  knownError := h.knownError
  boundary := h.boundary

/-- READY with nothing queued may go to DRAINED: neither phase is FAILED, so `err` fits both (R32, R33). -/
theorem State.Consistent.to_drained {s : State} (h : s.Consistent) (hp : s.phase = .ready) (hq : s.q = []) :
    ({ s with phase := .drained } : State).Consistent where
  bounded := h.bounded
  readyOnly _ := hq
  failedError := iff_of_true (h.failedError.mpr (by simp [hp])) (by simp)
  knownError := h.knownError
  boundary := h.boundary

theorem CommandResult.consistent {s t : State} (h : CommandResult s t) (hc : s.Consistent) : t.Consistent := by
  cases h with
  | answered a => exact hc.respond a
  | reset => exact (resetFields_consistent hc.boundary).respond _
  | failed e hp => exact enterError_consistent e s
  | built bits hp hroom => exact finishConstruct_consistent (by simpa [State.Bounded] using hroom hc.bounded)
  | fetched n hp => exact (hc.drain n).respond _
  | exhausted hp hq => exact (hc.to_drained hp hq).respond _

/-- Settles O49: a consistent state is between commands, so a step that does anything leaves a `CommandResult`. -/
theorem stepKeepsConsistency : Obligations.StepKeepsConsistency := by
  intro s t hc h
  rcases step_cases h with rfl | ⟨-, rest, hres⟩ | ⟨hseq, -⟩
  · exact hc
  · exact hres.consistent (hc.with_commands rest)
  · exact absurd hc.boundary hseq

end Sys2Proof.Machine
end

section
/-! What single host commands leave alone: the queue outside RESET, a CONSTRUCT in IDLE and a FETCH in READY (R72, R73), phase
and err outside their writers (R33). -/

namespace Sys2Proof.Machine

/-- Every host command but RESET, a CONSTRUCT in IDLE and a FETCH in READY does no more than answer (R80, R285, R286, R347,
R348). -/
theorem exec_only_answers {i : Instr} {s : State} (hm : i.isMicro = false) (hreset : i ≠ .reset)
    (hconstruct : (∃ p m b y c body, i = .construct p m b y c body) → s.phase ≠ .idle)
    (hfetch : (∃ n, i = .fetch n) → s.phase ≠ .ready) : ∃ a, exec i s = .next (respond a s) := by
  by_cases hpure : i.isPure = true
  · obtain ⟨a, h, -⟩ := exec_pure i s hpure
    exact ⟨a, h⟩
  · cases i <;> simp [Instr.isMicro] at hm <;> simp [Instr.isPure] at hpure
    case reset => exact absurd rfl hreset
    case construct p m b y c body => exact ⟨_, if_neg (hconstruct ⟨p, m, b, y, c, body, rfl⟩)⟩
    case fetch n =>
      have hnr : s.phase ≠ .ready := hfetch ⟨n, rfl⟩
      rcases execFetch_cases n s with ⟨hr, -, -⟩ | ⟨hr, -, -⟩ | ⟨-, h⟩ | ⟨-, h⟩
      · exact absurd hr hnr
      · exact absurd hr hnr
      · exact ⟨_, h⟩
      · exact ⟨_, h⟩
    case readStatus => exact ⟨_, rfl⟩

/-- The frame of a step on such a command. -/
theorem step_keeps_phase_err_queue {s t : State} {tx : Transaction} {rest : List Transaction} {i : Instr}
    (hs : s.seq = none) (hc : s.commands = tx :: rest) (hd : decodeHost tx = .command i) (h : step s = .next t)
    (hreset : i ≠ .reset) (hconstruct : (∃ p m b y c body, i = .construct p m b y c body) → s.phase ≠ .idle)
    (hfetch : (∃ n, i = .fetch n) → s.phase ≠ .ready) : t.phase = s.phase ∧ t.err = s.err ∧ t.q = s.q := by
  obtain ⟨a, ha⟩ :=
    exec_only_answers (s := { s with commands := rest }) (decodeHost_isMicro hd) hreset hconstruct hfetch
  rw [step_of_decodeHost hs hc hd, ha] at h
  obtain rfl := Host.Outcome.next.inj h
  exact ⟨rfl, rfl, rfl⟩

/-- A CONSTRUCT in IDLE discards the queue in FAILED, or appends to it in READY (R283, R313). -/
theorem exec_construct_queue {p m : BitVec 8} {b y c : Word} {body : Text} {s t : State} (hidle : s.phase = .idle)
    (h : exec (.construct p m b y c body) s = .next t) :
    (t.phase = .failed ∧ t.q = []) ∨ (t.phase = .ready ∧ ∃ bits, t.q = s.q ++ bits) := by
  rcases execConstruct_cases p m b y c body s with ⟨hp, -⟩ | ⟨-, e, hx⟩ | ⟨-, bits, -, hx⟩
  · exact absurd hidle hp
  · obtain rfl := Host.Outcome.next.inj (hx.symm.trans h)
    exact .inl ⟨rfl, rfl⟩
  · obtain rfl := Host.Outcome.next.inj (hx.symm.trans h)
    exact .inr ⟨rfl, bits, rfl⟩

/-- A FETCH keeps err; in READY it takes its bits off the front of the queue (R73, R284). -/
theorem exec_fetch_frame {n : Word} {s t : State} (h : exec (.fetch n) s = .next t) :
    t.err = s.err ∧ (s.phase = .ready → t.q = s.q.drop n.toNat) := by
  rcases execFetch_cases n s with ⟨-, -, hx⟩ | ⟨-, hq, hx⟩ | ⟨hp, hx⟩ | ⟨hp, hx⟩ <;>
    obtain rfl := Host.Outcome.next.inj (hx.symm.trans h)
  · exact ⟨rfl, fun _ => rfl⟩
  · exact ⟨rfl, fun _ => by simp [hq]⟩
  · exact ⟨rfl, fun hr => by simp [hp] at hr⟩
  · exact ⟨rfl, fun hr => by simp [hr] at hp⟩

/-- Settles O55: the four clauses are the laws of RESET, CONSTRUCT, FETCH and the commands that only answer. -/
theorem queueChangesOnlyByConstructFetchAndReset : Obligations.QueueChangesOnlyByConstructFetchAndReset := by
  intro s t tx rest i hs hc hd h
  have hexec : exec i { s with commands := rest } = .next t := (step_of_decodeHost hs hc hd).symm.trans h
  refine ⟨?_, ?_, ?_, ?_⟩
  · rintro rfl
    obtain rfl := Host.Outcome.next.inj hexec
    rfl
  · rintro ⟨p, m, b, y, c, body, rfl⟩ hidle
    exact exec_construct_queue (s := { s with commands := rest }) hidle hexec
  · rintro n rfl hready
    exact (exec_fetch_frame hexec).2 hready
  · intro hreset hconstruct hfetch
    exact (step_keeps_phase_err_queue hs hc hd h hreset hconstruct hfetch).2.2

/-- Settles O56: all but FETCH are commands that only answer. -/
theorem otherCommandsKeepPhaseErrorAndQueue : Obligations.OtherCommandsKeepPhaseErrorAndQueue := by
  intro s t tx rest i hs hc hd h
  refine ⟨?_, ?_, ?_⟩
  · rintro ⟨n, rfl⟩
    exact (exec_fetch_frame ((step_of_decodeHost hs hc hd).symm.trans h)).1
  · intro hi
    refine step_keeps_phase_err_queue hs hc hd h ?_ ?_ ?_
    · rintro rfl
      simp [Instr.isPure] at hi
    · rintro ⟨p, m, b, y, c, body, rfl⟩
      simp [Instr.isPure] at hi
    · rintro ⟨n, rfl⟩
      simp [Instr.isPure] at hi
  · rintro ⟨p, m, b, y, c, body, rfl⟩ hp
    exact step_keeps_phase_err_queue hs hc hd h (by simp) (fun _ => hp) (by simp)

end Sys2Proof.Machine
end

section
/-! The atomic CONSTRUCT against the machine stepped micro-op by micro-op (R31). -/

namespace Sys2Proof.Machine

theorem SequencerResult.commands_eq {s t : State} (h : SequencerResult s t) : t.commands = s.commands := by
  cases h with
  | finished => rfl
  | appended rep rest bits => simp

theorem core_run_of_next {M : Host.Core} {s s' : M.State} (k : Nat) (h : M.step s = .next s') :
    M.run (k + 1) s = M.run k s' := by
  rw [Host.Core.run, h]

theorem core_run_of_refused {M : Host.Core} {s : M.State} {r : M.Refusal} (k : Nat) (h : M.step s = .refused r) :
    M.run (k + 1) s = .refused r := by
  rw [Host.Core.run, h]

/-- With no command waiting the machine's steps are the sequencer's until it is idle, and keep the state from then on. -/
theorem core_run_eq_runSequencer (fuel : Nat) (s : State) (hc : s.commands = []) :
    Host.Core.run Sys2Proof.core fuel s = runSequencer fuel s := by
  induction fuel generalizing s with
  | zero => rfl
  | succ fuel ih =>
    cases hs : s.seq with
    | none =>
      have hidle := (ih s hc).trans (runSequencer_idle fuel s hs)
      rw [runSequencer_idle (fuel + 1) s hs, ← hidle]
      exact core_run_of_next (M := Sys2Proof.core) fuel (step_of_idle hs hc)
    | some sq =>
      rw [runSequencer, hs]
      dsimp only
      cases hx : sequencerStep sq s with
      | next t =>
        have ht : t.commands = [] := (sequencerStep_cases hx).commands_eq.trans hc
        exact (core_run_of_next (M := Sys2Proof.core) fuel ((step_of_seq hs).trans hx)).trans (ih t ht)
      | fault r => nomatch r
      | refused r => exact core_run_of_refused (M := Sys2Proof.core) fuel ((step_of_seq hs).trans hx)

/-- A CONSTRUCT that passes its checks is the run of the micro-program they select (R283, R314). -/
theorem exec_construct_of_checks {protocol msgType : BitVec 8} {baudRate symbolRate capcode : Word} {body : Text} {s : State}
    {p : Protocol} {mt : MsgType} {rep : Nat} {ops : List Instr} (hidle : s.phase = .idle)
    (hcheck : checkArguments protocol msgType baudRate symbolRate = .ok (p, mt, rep))
    (hbatch : batchProgram s.cfg p capcode mt body = .ok ops) :
    exec (.construct protocol msgType baudRate symbolRate capcode body) s = runProgram rep ops s := by
  simp only [exec, execConstruct, hidle, if_true, hcheck, hbatch]

/-- Settles O44: both sides are the sequencer run for one step per micro-op and one for the end. -/
theorem constructIsTheSequencerRunToCompletion : Obligations.ConstructIsTheSequencerRunToCompletion := by
  intro protocol msgType baudRate symbolRate capcode body s p mt rep ops hidle hc hcheck hbatch
  rw [exec_construct_of_checks hidle hcheck hbatch]
  exact core_run_eq_runSequencer (ops.length + 1) (startProgram rep (programWords ops) s) hc

end Sys2Proof.Machine
end

section
/-! Micro-ops as sequences of QBITs: with room in the queue an append may be cut anywhere (R76). -/

namespace Sys2Proof.Machine

/-- With room for all the bits, appending them at once is appending a first part and then the rest. -/
theorem appendBits_append {rep : Nat} {xs ys : List Bit} {s : State}
    (hroom : s.q.length + rep * (xs ++ ys).length ≤ s.cfg.queueCapacity.val) :
    appendBits rep (xs ++ ys) s = appendBits rep ys (appendBits rep xs s) := by
  have hparts : s.q.length + (rep * xs.length + rep * ys.length) ≤ s.cfg.queueCapacity.val := by
    rwa [List.length_append, Nat.mul_add] at hroom
  have hfirst : appendBits rep xs s = { s with q := s.q ++ replicateBits rep xs } := appendBits_of_room (by omega)
  have hrest : appendBits rep ys { s with q := s.q ++ replicateBits rep xs } =
      { s with q := s.q ++ replicateBits rep xs ++ replicateBits rep ys } :=
    appendBits_of_room (by simpa [Nat.add_assoc] using hparts)
  rw [hfirst, hrest, appendBits_of_room hroom, replicateBits_append, List.append_assoc]

theorem runInstrs_cons_of_next {i : Instr} {s t : State} (is : List Instr) (h : exec i s = .next t) :
    runInstrs (i :: is) s = runInstrs is t := by
  rw [runInstrs, h]

section MicroOpsInsideATransition
variable {s : State} {sq : Sequencer}

theorem exec_qbit_of_seq (b : Bit) (hs : s.seq = some sq) : exec (.qbit b) s = .next (appendBits sq.rep [b] s) := by
  simp only [exec, execQbit, hs]

theorem exec_qword_of_seq (w : Word) (hs : s.seq = some sq) :
    exec (.qword w) s = .next (appendBits sq.rep (msbBits w) s) := by
  simp only [exec, execQword, hs]

theorem exec_qvec_of_pattern {pid : BitVec 8} {bits : List Bit} (hs : s.seq = some sq)
    (hp : pattern s.cfg pid = some bits) : exec (.qvec pid) s = .next (appendBits sq.rep bits s) := by
  simp only [exec, execQvec, hs, hp]

/-- With room for all their bits, QBITs one after another leave what one append of those bits leaves. -/
theorem runInstrs_qbits_of_room (bits : List Bit) (hs : s.seq = some sq)
    (hroom : s.q.length + sq.rep * bits.length ≤ s.cfg.queueCapacity.val) :
    runInstrs (bits.map .qbit) s = .next (appendBits sq.rep bits s) := by
  induction bits generalizing s with
  | nil => simp [runInstrs, appendBits_of_room hroom]
  | cons b bits ih =>
    have hparts : s.q.length + (sq.rep + sq.rep * bits.length) ≤ s.cfg.queueCapacity.val := by
      rwa [List.length_cons, Nat.mul_succ, Nat.add_comm (sq.rep * _)] at hroom
    have hbit : appendBits sq.rep [b] s = { s with q := s.q ++ List.replicate sq.rep b } := by
      rw [appendBits_of_room (by rw [List.length_singleton]; omega), replicateBits_cons, replicateBits_nil, List.append_nil]
    calc runInstrs ((b :: bits).map .qbit) s
        = runInstrs (bits.map .qbit) (appendBits sq.rep [b] s) := runInstrs_cons_of_next _ (exec_qbit_of_seq b hs)
      _ = .next (appendBits sq.rep bits (appendBits sq.rep [b] s)) :=
          ih (by rwa [hbit]) (by simpa [hbit, Nat.add_assoc] using hparts)
      _ = .next (appendBits sq.rep (b :: bits) s) := by
          rw [← appendBits_append (xs := [b]) hroom, List.singleton_append]

end MicroOpsInsideATransition

/-- Settles O38: QWORD and QVEC are one append each, and so are the QBITs of its bits. -/
theorem wordsAndPatternsAreSequencesOfBits : Obligations.WordsAndPatternsAreSequencesOfBits := by
  intro s sq hs
  refine ⟨fun w hroom => ?_, fun pid bits hp hroom => ?_⟩
  · have hbits : ((List.range 32).map fun k => Instr.qbit (w.getLsbD (31 - k))) = (msbBits w).map .qbit := by
      rw [msbBits, List.map_map]
      rfl
    rw [hbits, exec_qword_of_seq w hs]
    exact runInstrs_qbits_of_room _ hs (by rwa [msbBits_length, Nat.mul_comm])
  · rw [exec_qvec_of_pattern hs hp]
    exact runInstrs_qbits_of_room _ hs (by rwa [Nat.mul_comm])

end Sys2Proof.Machine
end

section
/-! Fields of words (R16): what a field read from a word of packed fields is, and how the fields of a word make it up again. -/

namespace Sys2Proof

theorem fieldAt_getElem {n lo k : Nat} (v : BitVec n) (hk : k < 32) :
    (fieldAt lo v)[k] = (decide (lo ≤ k) && v.getLsbD (k - lo)) := by
  by_cases hlo : lo ≤ k <;> simp [fieldAt, hlo, Nat.lt_of_not_le]

@[simp] theorem fieldAt_zero (lo n : Nat) : fieldAt lo (0#n) = 0#32 := by
  simp [fieldAt]

/-- A field reads back as the value placed there. -/
theorem extractLsb'_fieldAt_self {n lo : Nat} (v : BitVec n) (h : lo + n ≤ 32) : (fieldAt lo v).extractLsb' lo n = v := by
  ext k hk
  have hlt : lo + k < 32 := by omega
  simp [fieldAt_getElem, hlt, hk]

/-- A field placed elsewhere reads as zeros. -/
theorem extractLsb'_fieldAt_disjoint {n lo hi m : Nat} (v : BitVec n) (hm : hi + m ≤ 32) (h : hi + m ≤ lo ∨ lo + n ≤ hi) :
    (fieldAt lo v).extractLsb' hi m = 0#m := by
  ext k hk
  have hlt : hi + k < 32 := by omega
  have hout : lo ≤ hi + k → v.getLsbD (hi + k - lo) = false := fun _ => BitVec.getLsbD_of_ge _ _ (by omega)
  simpa [fieldAt_getElem, hlt] using hout

/-- Two neighbouring fields of a word are one field of it. -/
theorem fieldAt_or_fieldAt (w : Word) {lo n hi m : Nat} (h : hi = lo + n) :
    fieldAt lo (w.extractLsb' lo n) ||| fieldAt hi (w.extractLsb' hi m) = fieldAt lo (w.extractLsb' lo (n + m)) := by
  subst h
  ext k hk
  simp only [BitVec.getElem_or, fieldAt_getElem, BitVec.getLsbD_extractLsb']
  rcases Nat.lt_or_ge k lo with hlo | hlo
  · have h1 : ¬ lo ≤ k := by omega
    have h2 : ¬ lo + n ≤ k := by omega
    simp [h1, h2]
  · obtain ⟨j, rfl⟩ := Nat.exists_eq_add_of_le hlo
    rcases Nat.lt_or_ge j n with hj | hj
    · have h1 : ¬ n ≤ j := by omega
      have h2 : j < n + m := by omega
      simp [hj, h1, h2]
    · obtain ⟨l, rfl⟩ := Nat.exists_eq_add_of_le hj
      have h1 : lo + (n + l) - (lo + n) = l := by omega
      simp [h1, Nat.add_assoc]

theorem fieldAt_whole (w : Word) {n : Nat} (h : n = 32) : fieldAt 0 (w.extractLsb' 0 n) = w := by
  subst h
  simp [fieldAt]

/-- A word with no bit outside one field is that field. -/
theorem fieldAt_extractLsb'_of_clean {w : Word} {lo n hi m : Nat} (hhi : hi = lo + n) (hm : hi + m = 32)
    (hlow : w.extractLsb' 0 lo = 0#lo) (hhigh : w.extractLsb' hi m = 0#m) : fieldAt lo (w.extractLsb' lo n) = w := by
  calc fieldAt lo (w.extractLsb' lo n)
      = fieldAt 0 (w.extractLsb' 0 lo) ||| fieldAt lo (w.extractLsb' lo n) ||| fieldAt hi (w.extractLsb' hi m) := by
        simp [hlow, hhigh]
    _ = fieldAt 0 (w.extractLsb' 0 (lo + n + m)) := by
        rw [fieldAt_or_fieldAt w (Nat.zero_add lo).symm, fieldAt_or_fieldAt w (by omega)]
    _ = w := fieldAt_whole w (by omega)

end Sys2Proof
end

section
/-! The host decoder against the encoder (R110, R111, R113, R116): a command's transaction decodes to it, and a transaction
that decodes is the encoding of its command. -/

namespace Sys2Proof

/-! ## Argument words -/

theorem flexArgumentClean_iff {w : Word} :
    flexArgumentClean w = true ↔ w.extractLsb' 0 4 = 0#4 ∧ w.extractLsb' 21 11 = 0#11 := by
  simp [flexArgumentClean]

/-- A FLEX builder's argument word is its field [20:4] (R113). -/
theorem fieldAt_of_flexArgumentClean {w : Word} (h : flexArgumentClean w = true) : fieldAt 4 (w.extractLsb' 4 17) = w := by
  obtain ⟨hlow, hhigh⟩ := flexArgumentClean_iff.mp h
  exact fieldAt_extractLsb'_of_clean rfl rfl hlow hhigh

theorem decodeConstruct_encode (protocol msgType : BitVec 8) (baudRate symbolRate capcode : Word) (body : Text) :
    decodeConstruct [fieldAt 0 protocol ||| fieldAt 8 msgType, baudRate, symbolRate, capcode] body =
      .command (.construct protocol msgType baudRate symbolRate capcode body) := by
  simp [decodeConstruct, BitVec.extractLsb'_or, extractLsb'_fieldAt_self, extractLsb'_fieldAt_disjoint]

theorem decodeFiw_encode (cycle : BitVec 4) (frame : BitVec 7) (roaming rept : BitVec 1) (t : BitVec 4) :
    decodeFiw (fieldAt 4 cycle ||| fieldAt 8 frame ||| fieldAt 15 roaming ||| fieldAt 16 rept ||| fieldAt 17 t) =
      .command (.buildFiw cycle frame roaming rept t) := by
  simp [decodeFiw, flexArgumentClean, BitVec.extractLsb'_or, extractLsb'_fieldAt_self, extractLsb'_fieldAt_disjoint]

theorem decodeBiw1_encode (priority : BitVec 4) (a : BitVec 2) (vectorStart : BitVec 6) (carryOn : BitVec 2)
    (collapse : BitVec 3) :
    decodeBiw1 (fieldAt 4 priority ||| fieldAt 8 a ||| fieldAt 10 vectorStart ||| fieldAt 16 carryOn |||
      fieldAt 18 collapse) = .command (.buildBiw1 priority a vectorStart carryOn collapse) := by
  simp [decodeBiw1, flexArgumentClean, BitVec.extractLsb'_or, extractLsb'_fieldAt_self, extractLsb'_fieldAt_disjoint]

theorem decodeNvw_encode (vectorType : BitVec 3) (messageStart : BitVec 7) (nWords : BitVec 3) (cksum : BitVec 4) :
    decodeNvw (fieldAt 4 vectorType ||| fieldAt 7 messageStart ||| fieldAt 14 nWords ||| fieldAt 17 cksum) =
      .command (.buildNvw vectorType messageStart nWords cksum) := by
  simp [decodeNvw, flexArgumentClean, BitVec.extractLsb'_or, extractLsb'_fieldAt_self, extractLsb'_fieldAt_disjoint]

theorem decodePaddr_encode (capcode : Word) (func : BitVec 2) :
    decodePaddr capcode (fieldAt 0 func) = .command (.buildPaddr capcode func) := by
  simp [decodePaddr, extractLsb'_fieldAt_self, extractLsb'_fieldAt_disjoint]

/-! ## From a command to its transaction and back -/

/-- A host command's transaction decodes to it (R113). -/
theorem decodeHost_encodeHost (i : Instr) (hm : i.isMicro = false) : decodeHost (encodeHost i) = .command i := by
  cases i with
  | reset => rfl
  | construct protocol msgType baudRate symbolRate capcode body =>
    exact decodeConstruct_encode protocol msgType baudRate symbolRate capcode body
  | fetch maxCount => rfl
  | readStatus => rfl
  | addChecksum w => rfl
  | parity x => rfl
  | reverse32 x => rfl
  | fecEncode x => rfl
  | buildFiw cycle frame roaming rept t => exact decodeFiw_encode cycle frame roaming rept t
  | buildBiw1 priority a vectorStart carryOn collapse => exact decodeBiw1_encode priority a vectorStart carryOn collapse
  | buildSaddr address => rfl
  | buildNvw vectorType messageStart nWords cksum => exact decodeNvw_encode vectorType messageStart nWords cksum
  | buildPaddr capcode func => exact decodePaddr_encode capcode func
  | qbit b => cases hm
  | qword w => cases hm
  | qvec pid => cases hm

/-- Settles O1: each half is one decoder's round trip. -/
theorem decodeOfEncodeIsTheInstruction : Obligations.DecodeOfEncodeIsTheInstruction := by
  intro i
  exact ⟨decodeHost_encodeHost i, fun hm hw rest => Machine.decodeMicro_encode i rest hm hw⟩

/-! ## From a transaction to its command and back -/

theorem encodeHost_of_noArgument {c : Word} {args : List Word} {body : Text} {i j : Instr}
    (hj : encodeHost j = { words := [c], body := [] }) (h : noArgument args body j = .command i) :
    encodeHost i = { words := c :: args, body := body } := by
  unfold noArgument at h
  split at h
  · cases h
    exact hj
  · cases h

theorem encodeHost_of_oneArgument {c : Word} {args : List Word} {body : Text} {f : Word → HostDecode} {i : Instr}
    (hf : ∀ a, f a = .command i → encodeHost i = { words := [c, a], body := [] })
    (h : oneArgument args body f = .command i) : encodeHost i = { words := c :: args, body := body } := by
  unfold oneArgument at h
  split at h
  · exact hf _ h
  · cases h

theorem encodeHost_of_twoArguments {c : Word} {args : List Word} {body : Text} {f : Word → Word → HostDecode} {i : Instr}
    (hf : ∀ a b, f a b = .command i → encodeHost i = { words := [c, a, b], body := [] })
    (h : twoArguments args body f = .command i) : encodeHost i = { words := c :: args, body := body } := by
  unfold twoArguments at h
  split at h
  · exact hf _ _ h
  · cases h

/-- The commands whose one argument word is an operand as it stands. -/
theorem encodeHost_of_operand {c : Word} {args : List Word} {body : Text} {mk : Word → Instr} {i : Instr}
    (hmk : ∀ a, encodeHost (mk a) = { words := [c, a], body := [] })
    (h : oneArgument args body (fun a => .command (mk a)) = .command i) :
    encodeHost i = { words := c :: args, body := body } := by
  refine encodeHost_of_oneArgument (fun a ha => ?_) h
  cases ha
  exact hmk a

theorem encodeHost_of_decodeConstruct {args : List Word} {body : Text} {i : Instr}
    (h : decodeConstruct args body = .command i) : encodeHost i = { words := 0x00000002#32 :: args, body := body } := by
  unfold decodeConstruct at h
  split at h
  · split at h
    · next hclean =>
      cases h
      rw [encodeHost, encode, payload, fieldAt_or_fieldAt _ rfl,
        fieldAt_extractLsb'_of_clean rfl rfl (BitVec.eq_nil _) hclean]
    · cases h
  · cases h

theorem encodeHost_of_decodeFiw {w : Word} {i : Instr} (h : decodeFiw w = .command i) :
    encodeHost i = { words := [0x00000020#32, w], body := [] } := by
  unfold decodeFiw at h
  split at h
  · next hclean =>
    cases h
    rw [encodeHost, encode, payload, fieldAt_or_fieldAt w rfl, fieldAt_or_fieldAt w rfl, fieldAt_or_fieldAt w rfl,
      fieldAt_or_fieldAt w rfl, fieldAt_of_flexArgumentClean hclean]
  · cases h

theorem encodeHost_of_decodeBiw1 {w : Word} {i : Instr} (h : decodeBiw1 w = .command i) :
    encodeHost i = { words := [0x00000021#32, w], body := [] } := by
  unfold decodeBiw1 at h
  split at h
  · next hclean =>
    cases h
    rw [encodeHost, encode, payload, fieldAt_or_fieldAt w rfl, fieldAt_or_fieldAt w rfl, fieldAt_or_fieldAt w rfl,
      fieldAt_or_fieldAt w rfl, fieldAt_of_flexArgumentClean hclean]
  · cases h

theorem encodeHost_of_decodeNvw {w : Word} {i : Instr} (h : decodeNvw w = .command i) :
    encodeHost i = { words := [0x00000023#32, w], body := [] } := by
  unfold decodeNvw at h
  split at h
  · next hclean =>
    cases h
    rw [encodeHost, encode, payload, fieldAt_or_fieldAt w rfl, fieldAt_or_fieldAt w rfl, fieldAt_or_fieldAt w rfl,
      fieldAt_of_flexArgumentClean hclean]
  · cases h

theorem encodeHost_of_decodePaddr {capcode w : Word} {i : Instr} (h : decodePaddr capcode w = .command i) :
    encodeHost i = { words := [0x00000024#32, capcode, w], body := [] } := by
  unfold decodePaddr at h
  split at h
  · next hclean =>
    cases h
    rw [encodeHost, encode, payload, fieldAt_extractLsb'_of_clean rfl rfl (BitVec.eq_nil _) hclean]
  · cases h

/-- An opcode of R113 with the argument words and payload it takes. -/
theorem encodeHost_of_decodeOpcode {opc : Nat} {args : List Word} {body : Text} {i : Instr}
    (h : decodeOpcode opc args body = .command i) :
    encodeHost i = { words := BitVec.ofNat 32 opc :: args, body := body } := by
  unfold decodeOpcode at h
  split at h
  · exact encodeHost_of_noArgument rfl h
  · exact encodeHost_of_decodeConstruct h
  · exact encodeHost_of_operand (fun _ => rfl) h
  · exact encodeHost_of_noArgument rfl h
  · exact encodeHost_of_operand (fun _ => rfl) h
  · exact encodeHost_of_operand (fun _ => rfl) h
  · exact encodeHost_of_operand (fun _ => rfl) h
  · exact encodeHost_of_operand (fun _ => rfl) h
  · exact encodeHost_of_oneArgument (fun _ => encodeHost_of_decodeFiw) h
  · exact encodeHost_of_oneArgument (fun _ => encodeHost_of_decodeBiw1) h
  · exact encodeHost_of_operand (fun _ => rfl) h
  · exact encodeHost_of_oneArgument (fun _ => encodeHost_of_decodeNvw) h
  · exact encodeHost_of_twoArguments (fun _ _ => encodeHost_of_decodePaddr) h
  · cases h

/-- A command word with its reserved bits 0 is its opcode (R110). -/
theorem commandWord_eq_opcode {c : Word} (h : c.extractLsb' 8 24 = 0#24) : BitVec.ofNat 32 (c.extractLsb' 0 8).toNat = c := by
  calc BitVec.ofNat 32 (c.extractLsb' 0 8).toNat
      = fieldAt 0 (c.extractLsb' 0 8) := by rw [BitVec.ofNat_toNat, fieldAt, BitVec.shiftLeft_zero]
    _ = c := fieldAt_extractLsb'_of_clean rfl rfl (BitVec.eq_nil _) h

theorem decodeHost_of_reserved {c : Word} (args : List Word) (body : Text) (h : c.extractLsb' 8 24 ≠ 0#24) :
    decodeHost { words := c :: args, body := body } = .refuse .reservedBits := if_neg h

theorem decodeHost_of_clean {c : Word} (args : List Word) (body : Text) (h : c.extractLsb' 8 24 = 0#24) :
    decodeHost { words := c :: args, body := body } = decodeOpcode (c.extractLsb' 0 8).toNat args body := if_pos h

/-- A transaction that decodes is the encoding of its command, word for word (R111, R113). -/
theorem encodeHost_of_decodeHost {tx : Transaction} {i : Instr} (h : decodeHost tx = .command i) : encodeHost i = tx := by
  obtain ⟨words, body⟩ := tx
  cases words with
  | nil => cases h
  | cons c args =>
    by_cases hclean : c.extractLsb' 8 24 = 0#24
    · rw [decodeHost_of_clean args body hclean] at h
      rw [encodeHost_of_decodeOpcode h, commandWord_eq_opcode hclean]
    · rw [decodeHost_of_reserved args body hclean] at h
      cases h

/-- Settles O2: the two parts are what the host decoder reads and which commands it yields. -/
theorem hostTransactionIsTheEncodingOfItsCommand : Obligations.HostTransactionIsTheEncodingOfItsCommand := by
  intro tx i h
  exact ⟨(encodeHost_of_decodeHost h).symm, Machine.decodeHost_isMicro h⟩

/-! ## Refusals -/

/-- An opcode R113 does not list is illegal (R117). -/
theorem decodeOpcode_of_unlisted {opc : Nat} (args : List Word) (body : Text)
    (h : opc ∉ [0x01, 0x02, 0x03, 0x04, 0x10, 0x11, 0x12, 0x13, 0x20, 0x21, 0x22, 0x23, 0x24]) :
    decodeOpcode opc args body = .refuse .illegalOpcode := by
  unfold decodeOpcode
  split
  case h_14 => rfl
  all_goals exact absurd (by decide) h

/-- Settles O4: R116's order, the command word's reserved bits before its opcode. -/
theorem reservedWordsAndIllegalOpcodesAreRefused : Obligations.ReservedWordsAndIllegalOpcodesAreRefused := by
  intro c args body
  refine ⟨decodeHost_of_reserved args body, fun hclean hopc => ?_⟩
  rw [decodeHost_of_clean args body hclean]
  exact decodeOpcode_of_unlisted args body hopc

/-- A FLEX builder's argument with a bit set outside [20:4]. -/
theorem not_flexArgumentClean {w : Word} (h : w.extractLsb' 0 4 ≠ 0#4 ∨ w.extractLsb' 21 11 ≠ 0#11) :
    ¬ flexArgumentClean w = true := by
  rw [flexArgumentClean_iff]
  tauto

/-- Settles O5: each of the five argument decoders tests its reserved bits first. -/
theorem reservedArgumentBitsAreRefused : Obligations.ReservedArgumentBitsAreRefused := by
  refine ⟨fun a0 a1 a2 a3 body h => if_neg h, fun c a0 hc h => ?_, fun a0 a1 h => if_neg h⟩
  have hdirty := not_flexArgumentClean h
  rcases hc with rfl | rfl | rfl
  · exact if_neg hdirty
  · exact if_neg hdirty
  · exact if_neg hdirty

/-- Settles O6: the words are the encodings of their instructions, so the round trip reads them back. -/
theorem wordsOfTheSpecDecode : Obligations.WordsOfTheSpecDecode :=
  ⟨decodeHost_encodeHost .reset rfl, decodeHost_encodeHost (.fetch 1120#32) rfl,
    decodeHost_encodeHost (.buildFiw 3#4 5#7 0#1 1#1 2#4) rfl, decodeHost_encodeHost (.buildPaddr 425321#32 3#2) rfl,
    Machine.decodeMicro_encode (.qvec 0#8) [] rfl rfl⟩

end Sys2Proof
end

section
/-! The sequencer's decoder against the encoder (R114, R115): words that decode start with the encoding of a well-formed
micro-op. -/

namespace Sys2Proof

/-- A micro-op word is its opcode and its field from bit 8 up, when the bits above are 0. -/
theorem microWord_eq {c : Word} {n hi m : Nat} (hhi : hi = 8 + n) (hm : hi + m = 32) (hclean : c.extractLsb' hi m = 0#m) :
    c = fieldAt 0 (c.extractLsb' 0 8) ||| fieldAt 8 (c.extractLsb' 8 n) := by
  rw [fieldAt_or_fieldAt c rfl]
  exact (fieldAt_extractLsb'_of_clean (by omega) hm (BitVec.eq_nil _) hclean).symm

theorem encode_qbit_of_word {c : Word} (hopc : c.extractLsb' 0 8 = 0x80#8) (hclean : c.extractLsb' 9 23 = 0#23) :
    encode (.qbit (c.getLsbD 8)) = [c] := by
  have hbit : c.extractLsb' 8 1 = BitVec.ofBool (c.getLsbD 8) := by
    ext k hk
    obtain rfl : k = 0 := by omega
    simp
  have hc := microWord_eq (n := 1) rfl rfl hclean
  rw [hopc, hbit] at hc
  exact congrArg ([·]) hc.symm

theorem encode_qword_of_word {c : Word} (w : Word) (hopc : c.extractLsb' 0 8 = 0x81#8)
    (hclean : c.extractLsb' 8 24 = 0#24) : encode (.qword w) = [c, w] := by
  have hc := commandWord_eq_opcode hclean
  rw [hopc] at hc
  exact congrArg ([·, w]) hc

theorem encode_qvec_of_word {c : Word} (hopc : c.extractLsb' 0 8 = 0x82#8) (hclean : c.extractLsb' 16 16 = 0#16) :
    encode (.qvec (c.extractLsb' 8 8)) = [c] := by
  have hc := microWord_eq (n := 8) rfl rfl hclean
  rw [hopc] at hc
  exact congrArg ([·]) hc.symm

/-- Words that decode are the micro-op's encoding and the rest of the program, and the micro-op is well formed. -/
theorem encode_of_decodeMicro {words rest : List Word} {i : Instr} (h : decodeMicro words = .ok (i, rest)) :
    encode i ++ rest = words ∧ i.wf = true := by
  cases words with
  | nil => cases h
  | cons c tail =>
    unfold decodeMicro at h
    dsimp only at h
    split at h
    next hopc =>
      split at h
      next hclean =>
        cases h
        rw [encode_qbit_of_word (BitVec.eq_of_toNat_eq hopc) hclean]
        exact ⟨rfl, rfl⟩
      next => cases h
    next hopc =>
      split at h
      next hclean =>
        split at h
        · cases h
          rw [encode_qword_of_word _ (BitVec.eq_of_toNat_eq hopc) hclean]
          exact ⟨rfl, rfl⟩
        · cases h
      next => cases h
    next hopc =>
      split at h
      next hclean =>
        split at h
        next hpid =>
          cases h
          rw [encode_qvec_of_word (BitVec.eq_of_toNat_eq hopc) hclean]
          exact ⟨rfl, decide_eq_true hpid⟩
        next => cases h
      next => cases h
    next => cases h

/-- Settles O3: the decoder's inversion, and that it yields micro-ops only. -/
theorem microWordsAreTheEncodingOfTheirMicroOp : Obligations.MicroWordsAreTheEncodingOfTheirMicroOp := by
  intro words i rest h
  obtain ⟨hwords, hwf⟩ := encode_of_decodeMicro h
  exact ⟨hwords.symm, Machine.decodeMicro_isMicro h, hwf⟩

end Sys2Proof
end

section
/-! What is refused by name, and what the command port does with a transaction it decodes. -/

namespace Sys2Proof.Machine

/-- Settles O7: the step takes the command port's branch. -/
theorem stepRunsTheDecodedCommand : Obligations.StepRunsTheDecodedCommand := by
  intro s tx rest i hs hc hd
  exact step_of_decodeHost hs hc hd

theorem step_of_malformed {s : State} {tx : Transaction} {rest : List Transaction} (hs : s.seq = none)
    (hc : s.commands = tx :: rest) (hd : decodeHost tx = .malformed) : step s = .refused .malformedTransaction := by
  simp [step, fetchAndRun, hs, commandStep, hc, hd]

/-- Settles O12: of all that a step between commands can do, stopping is for a malformed transaction only. -/
theorem stepStopsExactlyOnMalformedTransactions : Obligations.StepStopsExactlyOnMalformedTransactions := by
  intro s tx rest hs hc
  refine ⟨fun hstop => ?_, step_of_malformed hs hc⟩
  rcases step_between_commands s hs with ⟨hnil, -⟩ | ⟨tx', rest', hc', hd, -⟩ | ⟨-, -, t, -, hnext, -⟩
  · cases hnil.symm.trans hc
  · obtain ⟨rfl, -⟩ := List.cons.inj (hc'.symm.trans hc)
    exact hd
  · cases hnext.symm.trans hstop

/-- Identifiers 4 to 255 name no pattern (R115). -/
theorem pattern_of_reserved (cfg : Config) {pid : BitVec 8} (h : 4 ≤ pid.toNat) : pattern cfg pid = none := by
  unfold pattern
  split
  case h_5 => rfl
  all_goals omega

/-- Settles O37: QVEC stops where there is no pattern to append. -/
theorem qvecStopsOnReservedPatterns : Obligations.QvecStopsOnReservedPatterns := by
  intro s sq pid hs h
  simp only [exec, execQvec, hs, pattern_of_reserved s.cfg h]

/-- Settles O39: each micro-op looks at the sequencer first. -/
theorem microOpsAreRefusedOutsideConstruct : Obligations.MicroOpsAreRefusedOutsideConstruct := by
  intro i s hm hs
  cases i <;> simp [Instr.isMicro] at hm
  case qbit b => simp only [exec, execQbit, hs, refuse, respond]
  case qword w => simp only [exec, execQword, hs, refuse, respond]
  case qvec pid => simp only [exec, execQvec, hs, refuse, respond]

end Sys2Proof.Machine
end

section
/-! Fields of words, continued: a field of a field, a word from two fields, and fields under exclusive or. -/

namespace Sys2Proof

/-- A field of a field is a field of the whole. -/
theorem extractLsb'_extractLsb'_add {w lo n hi m : Nat} (x : BitVec w) (h : hi + m ≤ n) :
    (x.extractLsb' lo n).extractLsb' hi m = x.extractLsb' (lo + hi) m := by
  ext k hk
  have hin : hi + k < n := by omega
  simp [hin, Nat.add_assoc]

/-- A word is its bits [3:0] and [31:4]. -/
theorem word_ext_low_high {u w : Word} (hlow : u.extractLsb' 0 4 = w.extractLsb' 0 4)
    (hhigh : u.extractLsb' 4 28 = w.extractLsb' 4 28) : u = w := by
  calc u = fieldAt 0 (u.extractLsb' 0 4) ||| fieldAt 4 (u.extractLsb' 4 28) := by
        rw [fieldAt_or_fieldAt u rfl, fieldAt_whole u rfl]
    _ = w := by rw [hlow, hhigh, fieldAt_or_fieldAt w rfl, fieldAt_whole w rfl]

theorem fieldAt_xor {n : Nat} (lo : Nat) (v w : BitVec n) : fieldAt lo (v ^^^ w) = fieldAt lo v ^^^ fieldAt lo w := by
  rw [fieldAt, BitVec.setWidth_xor, BitVec.shiftLeft_xor_distrib, fieldAt, fieldAt]

/-- Words with no one bit in common have the same sum either way. -/
theorem or_eq_xor_of_and_eq_zero {n : Nat} {x y : BitVec n} (h : x &&& y = 0#n) : x ||| y = x ^^^ y := by
  apply BitVec.eq_of_getLsbD_eq
  intro k hk
  have hbit : (x.getLsbD k && y.getLsbD k) = false := by simpa using congrArg (fun b => b.getLsbD k) h
  revert hbit
  simp only [BitVec.getLsbD_or, BitVec.getLsbD_xor]
  cases x.getLsbD k <;> cases y.getLsbD k <;> decide

end Sys2Proof
end

section
/-! The commands of the bit primitives (R140 to R143): what value each one answers. -/

namespace Sys2Proof.Machine

/-! ## ADD_CHECKSUM -/

theorem addChecksum_high (w : Word) : (addChecksum w).extractLsb' 4 28 = w.extractLsb' 4 28 := by
  have hkeep : (w &&& 0xFFFFFFF0#32).extractLsb' 4 28 = w.extractLsb' 4 28 := by
    rw [BitVec.extractLsb'_and]
    exact BitVec.and_allOnes
  have hsum : (BitVec.ofNat 32 (15 - checksumSum w % 16)).extractLsb' 4 28 = 0#28 := by
    apply BitVec.eq_of_toNat_eq
    simp only [BitVec.extractLsb'_toNat, BitVec.toNat_ofNat, Nat.shiftRight_eq_div_pow]
    omega
  rw [addChecksum, BitVec.extractLsb'_or, hkeep, hsum, BitVec.or_zero]

theorem addChecksum_low (w : Word) : ((addChecksum w).extractLsb' 0 4).toNat = 15 - checksumSum w % 16 := by
  have hkeep : (w &&& 0xFFFFFFF0#32).extractLsb' 0 4 = 0#4 := by
    rw [BitVec.extractLsb'_and]
    exact BitVec.and_zero
  rw [addChecksum, BitVec.extractLsb'_or, hkeep, BitVec.zero_or, BitVec.extractLsb'_toNat, BitVec.toNat_ofNat]
  omega

/-- Every term of R140's sum is a field of bits [31:4]. -/
theorem checksumSum_congr {u w : Word} (h : u.extractLsb' 4 28 = w.extractLsb' 4 28) : checksumSum u = checksumSum w := by
  have hfield (lo n : Nat) (hn : lo + n ≤ 28) : u.extractLsb' (4 + lo) n = w.extractLsb' (4 + lo) n := by
    rw [← extractLsb'_extractLsb'_add u hn, h, extractLsb'_extractLsb'_add w hn]
  rw [checksumSum, hfield 0 4 (by decide), hfield 4 4 (by decide), hfield 8 4 (by decide), hfield 12 4 (by decide),
    hfield 16 1 (by decide), checksumSum]

theorem addChecksum_congr {u w : Word} (h : u.extractLsb' 4 28 = w.extractLsb' 4 28) : addChecksum u = addChecksum w := by
  refine word_ext_low_high (BitVec.eq_of_toNat_eq ?_) ?_
  · rw [addChecksum_low, addChecksum_low, checksumSum_congr h]
  · rw [addChecksum_high, addChecksum_high, h]

/-- Settles O18: the two fields of the value, and the state is only given the response. -/
theorem addChecksumComplementsTheNibbleSum : Obligations.AddChecksumComplementsTheNibbleSum := by
  intro w s
  exact ⟨rfl, addChecksum w, rfl, addChecksum_high w, addChecksum_low w⟩

/-- Settles O19: the value is a function of bits [31:4], which ADD_CHECKSUM keeps. -/
theorem addChecksumIsIdempotent : Obligations.AddChecksumIsIdempotent := by
  intro w
  exact ⟨addChecksum_congr (addChecksum_high w), fun _ => addChecksum_congr⟩

/-! ## PARITY -/

theorem popcount_eq_length_filter (x : Word) : popcount x = ((List.range 32).filter fun k => x.getLsbD k).length :=
  List.countP_eq_length_filter

theorem parity_toNat (x : Word) : (parity x).toNat = popcount x % 2 := by
  rw [parity, BitVec.toNat_ofNat]
  omega

/-- Settles O20: the value is the count modulo 2. -/
theorem parityCountsOneBits : Obligations.ParityCountsOneBits := by
  intro x s
  exact ⟨rfl, parity x, rfl, by rw [parity_toNat, popcount_eq_length_filter]⟩

/-! ## REVERSE32 -/

theorem reverse32_reverse32 (x : Word) : reverse32 (reverse32 x) = x := BitVec.reverse_reverse_eq

/-- Bits [31:21] of a word become bits [10:0] of its reversal, last one first. -/
theorem reverse32_low_of_high_clear {x : Word} (h : x.extractLsb' 21 11 = 0#11) : (reverse32 x).extractLsb' 0 11 = 0#11 := by
  apply BitVec.eq_of_getLsbD_eq
  intro k hk
  have hin : 10 - k < 11 := by omega
  have hbit : x.getLsbD (21 + (10 - k)) = false := by
    simpa [hin] using congrArg (fun b => b.getLsbD (10 - k)) h
  have hpos : 21 + (10 - k) = 31 - k := by omega
  simp [hk, reverse32_getLsbD x k (by omega), ← hpos, hbit]

/-- Settles O21, from the bits of the reversal. -/
theorem reverse32ReversesTheBits : Obligations.Reverse32ReversesTheBits := by
  intro x s
  exact ⟨rfl, reverse32 x, rfl, reverse32_getLsbD x, reverse32_reverse32 x, reverse32_low_of_high_clear⟩

/-! ## FEC_ENCODE -/

theorem exec_fecEncode (x : Word) (s : State) :
    exec (.fecEncode x) s = .next (respond (.value (fecEncode s.cfg x)) s) := rfl

/-- Settles O22: the wrapper reads the data bits alone. -/
theorem fecEncodeReadsOnlyTheDataBits : Obligations.FecEncodeReadsOnlyTheDataBits := by
  intro x s
  refine ⟨rfl, rfl, fun y h => ?_⟩
  rw [exec_fecEncode, exec_fecEncode, fecEncode_congr s.cfg h]

end Sys2Proof.Machine
end

section
/-! The default FEC code (R144): parity and the division loop are linear, so a codeword is the multiple of the generator that
holds the data, with an even parity bit below it. -/

namespace Sys2Proof.Machine

/-! ## Parity of a sum -/

/-- Of two predicates' counts, the places where exactly one holds are counted up to an even number. -/
theorem countP_xor_mod_two {α : Type} (p q : α → Bool) (l : List α) :
    (l.countP fun a => p a ^^ q a) % 2 = (l.countP p + l.countP q) % 2 := by
  induction l with
  | nil => rfl
  | cons a l ih =>
    rw [List.countP_cons, List.countP_cons, List.countP_cons]
    cases p a <;> cases q a <;> simp <;> omega

theorem popcount_xor_mod_two (x y : Word) : popcount (x ^^^ y) % 2 = (popcount x + popcount y) % 2 := by
  simpa only [popcount, BitVec.getLsbD_xor] using countP_xor_mod_two _ _ _

theorem parity_cases (x : Word) : parity x = 0#32 ∧ popcount x % 2 = 0 ∨ parity x = 1#32 ∧ popcount x % 2 = 1 := by
  rcases Nat.mod_two_eq_zero_or_one (popcount x) with h | h <;> simp [parity, h]

theorem popcount_parity (x : Word) : popcount (parity x) = popcount x % 2 := by
  rcases parity_cases x with ⟨hp, hc⟩ | ⟨hp, hc⟩ <;> rw [hp, hc] <;> decide

theorem parity_xor (x y : Word) : parity (x ^^^ y) = parity x ^^^ parity y := by
  rw [parity, popcount_xor_mod_two, Nat.add_mod]
  rcases parity_cases x with ⟨hpx, hcx⟩ | ⟨hpx, hcx⟩ <;> rcases parity_cases y with ⟨hpy, hcy⟩ | ⟨hpy, hcy⟩ <;>
    rw [hpx, hpy, hcx, hcy] <;> rfl

theorem parity_parity (x : Word) : parity (parity x) = parity x := by
  rw [parity, popcount_parity, Nat.mod_mod, ← parity]

/-- The parity word has no bit above bit 0. -/
theorem parity_getLsbD_succ (x : Word) (k : Nat) : (parity x).getLsbD (k + 1) = false := by
  rcases parity_cases x with ⟨hp, -⟩ | ⟨hp, -⟩ <;> simp [hp]

theorem parity_high (x : Word) : (parity x).extractLsb' 1 31 = 0#31 := by
  rcases parity_cases x with ⟨hp, -⟩ | ⟨hp, -⟩ <;> rw [hp] <;> rfl

/-! ## The division loop of R144 -/

theorem fecStep_of_clear {r : BitVec 31} {i : Nat} (h : r.getLsbD i = false) : fecStep r i = r := by
  rw [fecStep, h, if_neg Bool.false_ne_true]

theorem fecStep_of_set {r : BitVec 31} {i : Nat} (h : r.getLsbD i = true) : fecStep r i = r ^^^ fecGenerator <<< (i - 10) := by
  rw [fecStep, if_pos h]

theorem fecStep_xor (r s : BitVec 31) (i : Nat) : fecStep (r ^^^ s) i = fecStep r i ^^^ fecStep s i := by
  have hsum : (r ^^^ s).getLsbD i = (r.getLsbD i ^^ s.getLsbD i) := BitVec.getLsbD_xor
  cases hr : r.getLsbD i <;> cases hs : s.getLsbD i <;> rw [hr, hs] at hsum
  · rw [fecStep_of_clear hr, fecStep_of_clear hs, fecStep_of_clear hsum]
  · rw [fecStep_of_clear hr, fecStep_of_set hs, fecStep_of_set hsum, BitVec.xor_assoc]
  · rw [fecStep_of_set hr, fecStep_of_clear hs, fecStep_of_set hsum]
    ac_rfl
  · rw [fecStep_of_set hr, fecStep_of_set hs, fecStep_of_clear hsum]
    calc r ^^^ s = r ^^^ s ^^^ (fecGenerator <<< (i - 10) ^^^ fecGenerator <<< (i - 10)) := by
          rw [BitVec.xor_self, BitVec.xor_zero]
      _ = _ := by ac_rfl

theorem fecRemainder_xor (r s : BitVec 31) : fecRemainder (r ^^^ s) = fecRemainder r ^^^ fecRemainder s :=
  List.foldl_hom₂ _ (· ^^^ ·) fecStep fecStep fecStep r s fun r s i => (fecStep_xor r s i).symm

/-- `r` is a polynomial of degree below `n`. -/
def ClearFrom (n : Nat) (r : BitVec 31) : Prop := ∀ k, n ≤ k → r.getLsbD k = false

theorem clearFrom_of_lt {n : Nat} {r : BitVec 31} (h : r.toNat < 2 ^ n) : ClearFrom n r := fun _ hk =>
  Nat.testBit_lt_two_pow (h.trans_le (Nat.pow_le_pow_right Nat.two_pos hk))

/-- The generator has degree 10. -/
theorem fecGenerator_clearFrom : ClearFrom 11 fecGenerator := clearFrom_of_lt (by decide)

theorem fecGenerator_leading : fecGenerator.getLsbD 10 = true := by decide

/-- A step at bit `i` takes the degree from at most `i` to below it: the shifted generator's leading bit cancels bit `i`. -/
theorem fecStep_clearFrom {r : BitVec 31} {i : Nat} (h10 : 10 ≤ i) (h30 : i ≤ 30) (h : ClearFrom (i + 1) r) :
    ClearFrom i (fecStep r i) := by
  intro k hk
  have hshift : k - (i - 10) = k - i + 10 := by omega
  rcases Nat.eq_or_lt_of_le hk with rfl | hlt
  · have hlead : (fecGenerator <<< (i - 10)).getLsbD i = true := by
      have hin : i < 31 ∧ ¬ i < i - 10 := by omega
      simp [hshift, hin, fecGenerator_leading]
    cases hbit : r.getLsbD i
    · rw [fecStep_of_clear hbit, hbit]
    · rw [fecStep_of_set hbit, BitVec.getLsbD_xor, hbit, hlead, Bool.xor_self]
  · have hr : r.getLsbD k = false := h k hlt
    have hg : (fecGenerator <<< (i - 10)).getLsbD k = false := by
      simp [hshift, fecGenerator_clearFrom (k - i + 10) (by omega)]
    cases hbit : r.getLsbD i
    · rw [fecStep_of_clear hbit, hr]
    · rw [fecStep_of_set hbit, BitVec.getLsbD_xor, hr, hg, Bool.xor_self]

/-- After `n` passes of the loop the degree is below `31 - n`. -/
theorem foldl_fecStep_clearFrom (r : BitVec 31) {n : Nat} (hn : n ≤ 21) :
    ClearFrom (31 - n) (((List.range n).map fun k => 30 - k).foldl fecStep r) := by
  induction n with
  | zero => exact fun k hk => BitVec.getLsbD_of_ge r k hk
  | succ n ih =>
    have hprev : 31 - n = 30 - n + 1 := by omega
    have hnext : 31 - (n + 1) = 30 - n := by omega
    rw [List.range_succ, List.map_append, List.foldl_append, hnext]
    exact fecStep_clearFrom (by omega) (by omega) (hprev ▸ ih (by omega))

/-- The remainder has degree below the generator's. -/
theorem fecRemainder_clearFrom (r : BitVec 31) : ClearFrom 10 (fecRemainder r) :=
  foldl_fecStep_clearFrom r le_rfl

/-- A polynomial of degree below the generator's is its own remainder. -/
theorem fecRemainder_of_clearFrom {r : BitVec 31} (h : ClearFrom 10 r) : fecRemainder r = r := by
  refine List.foldlRecOn (motive := (· = r)) _ fecStep rfl fun t ht i hi => ?_
  obtain ⟨k, hk, rfl⟩ := List.mem_map.mp hi
  have hbit : r.getLsbD (30 - k) = false := h _ (by have := List.mem_range.mp hk; omega)
  rw [ht, fecStep_of_clear hbit]

/-! ## Codewords of the default code -/

/-- The 31-bit word of the default code: the data above the remainder that makes it a multiple of the generator. -/
def bchWord (d : BitVec 21) : BitVec 31 := (d.setWidth 31 <<< 10) ^^^ fecRemainder (d.setWidth 31 <<< 10)

/-- A 31-bit word in bits [31:1], with bit 0 making the parity even. -/
def evenWord (b : BitVec 31) : Word := fieldAt 1 b ^^^ parity (fieldAt 1 b)

theorem and_mask_of_clearFrom {r : BitVec 31} (h : ClearFrom 10 r) : r.setWidth 32 &&& 0x3FF#32 = r.setWidth 32 := by
  apply BitVec.eq_of_getLsbD_eq
  intro k hk
  rcases Nat.lt_or_ge k 10 with hlt | hge
  · have hmask : (0x3FF#32).getLsbD k = true := by interval_cases k <;> rfl
    rw [BitVec.getLsbD_and, hmask, Bool.and_true]
  · simp [h k hge]

theorem fieldAt_data (d : BitVec 21) : fieldAt 1 (d.setWidth 31 <<< 10) = fieldAt 11 d := by
  ext k hk
  rw [fieldAt_getElem _ hk, fieldAt_getElem _ hk]
  rcases Nat.lt_or_ge k 11 with hlt | hge
  · have hout : k - 1 < 10 := by omega
    simp [hlt, hout]
  · obtain ⟨j, rfl⟩ := Nat.exists_eq_add_of_le hge
    have hsub : 11 + j - 1 = 10 + j := by omega
    have hin : 10 + j < 31 ∧ j < 31 := by omega
    have hpos : 1 ≤ 11 + j := by omega
    simp [hsub, hin, hpos]

/-- Data and remainder stand side by side. -/
theorem fieldAt_data_or_check (d : BitVec 21) :
    fieldAt 11 d ||| fieldAt 1 (fecRemainder (d.setWidth 31 <<< 10)) = fieldAt 1 (bchWord d) := by
  have hdisjoint : fieldAt 11 d &&& fieldAt 1 (fecRemainder (d.setWidth 31 <<< 10)) = 0#32 := by
    ext k hk
    rw [BitVec.getElem_and, fieldAt_getElem _ hk, fieldAt_getElem _ hk]
    rcases Nat.lt_or_ge k 11 with hlt | hge
    · simp [hlt]
    · simp [fecRemainder_clearFrom (d.setWidth 31 <<< 10) (k - 1) (by omega)]
  rw [or_eq_xor_of_and_eq_zero hdisjoint, bchWord, fieldAt_xor, fieldAt_data]

theorem fieldAt_and_parity (b : BitVec 31) (x : Word) : fieldAt 1 b &&& parity x = 0#32 := by
  ext k hk
  rw [BitVec.getElem_and, fieldAt_getElem _ hk]
  cases k with
  | zero => simp
  | succ k => simp [← BitVec.getLsbD_eq_getElem, parity_getLsbD_succ]

/-- The encoder of R144: its word is the multiple of the generator that holds the data, with the parity bit below. -/
theorem fecDefault_eq (d : BitVec 21) : fecDefault d = evenWord (bchWord d) := by
  rw [fecDefault, and_mask_of_clearFrom (fecRemainder_clearFrom _), ← fieldAt, ← fieldAt, fieldAt_data_or_check]
  exact or_eq_xor_of_and_eq_zero (fieldAt_and_parity _ _)

theorem bchWord_xor (d e : BitVec 21) : bchWord (d ^^^ e) = bchWord d ^^^ bchWord e := by
  rw [bchWord, BitVec.setWidth_xor, BitVec.shiftLeft_xor_distrib, fecRemainder_xor, bchWord, bchWord]
  ac_rfl

theorem evenWord_xor (b c : BitVec 31) : evenWord (b ^^^ c) = evenWord b ^^^ evenWord c := by
  rw [evenWord, fieldAt_xor, parity_xor, evenWord, evenWord]
  ac_rfl

/-- Settles O24: each part of the encoder is linear. -/
theorem defaultFecIsLinear : Obligations.DefaultFecIsLinear := by
  intro d e
  rw [fecDefault_eq, bchWord_xor, evenWord_xor, ← fecDefault_eq, ← fecDefault_eq]

/-- Appending the remainder makes a multiple of the generator. -/
theorem fecRemainder_bchWord (d : BitVec 21) : fecRemainder (bchWord d) = 0#31 := by
  rw [bchWord, fecRemainder_xor, fecRemainder_of_clearFrom (fecRemainder_clearFrom _), BitVec.xor_self]

theorem bchWord_data (d : BitVec 21) : (bchWord d).extractLsb' 10 21 = d := by
  apply BitVec.eq_of_getLsbD_eq
  intro k hk
  have hin : 10 + k < 31 := by omega
  have hclear := fecRemainder_clearFrom (d.setWidth 31 <<< 10) (10 + k) (by omega)
  rw [BitVec.getLsbD_eq_getElem hin] at hclear
  simp [bchWord, hk, hin, hclear]

theorem evenWord_high (b : BitVec 31) : (evenWord b).extractLsb' 1 31 = b := by
  rw [evenWord, BitVec.extractLsb'_xor, extractLsb'_fieldAt_self b (by decide), parity_high, BitVec.xor_zero]

theorem parity_evenWord (b : BitVec 31) : parity (evenWord b) = 0#32 := by
  rw [evenWord, parity_xor, parity_parity, BitVec.xor_self]

theorem popcount_mod_two_of_parity_zero {x : Word} (h : parity x = 0#32) : popcount x % 2 = 0 := by
  rw [← parity_toNat, h]
  rfl

theorem fecDefault_high (d : BitVec 21) : (fecDefault d).extractLsb' 1 31 = bchWord d := by
  rw [fecDefault_eq, evenWord_high]

theorem fecDefault_data (d : BitVec 21) : (fecDefault d).extractLsb' 11 21 = d := by
  rw [← extractLsb'_extractLsb'_add (lo := 1) (n := 31) (hi := 10) _ (by decide), fecDefault_high, bchWord_data]

theorem fecDefault_even (d : BitVec 21) : popcount (fecDefault d) % 2 = 0 := by
  rw [fecDefault_eq]
  exact popcount_mod_two_of_parity_zero (parity_evenWord _)

/-- Settles O23: the 31-bit word holds the data and is a multiple of the generator, and bit 0 makes the word even. -/
theorem defaultFecCodewordsAreSystematicAndEven : Obligations.DefaultFecCodewordsAreSystematicAndEven := by
  intro d
  refine ⟨fecDefault_data d, ?_, ?_⟩
  · rw [← popcount_eq_length_filter, fecDefault_even]
  · rw [fecDefault_high, fecRemainder_bchWord]

end Sys2Proof.Machine
end

section
/-! What the default code gives its users: the contract of R143, and BUILD_PADDR's check (R145). -/

namespace Sys2Proof.Machine

/-! ## The contract of R143 -/

theorem fecParam_of_empty {cfg : Config} (h : cfg.fecTable = []) (d : BitVec 21) : fecParam cfg d = fecDefault d := by
  rw [fecParam, h]
  rfl

theorem fecSystematic_of_empty {cfg : Config} (h : cfg.fecTable = []) : FecSystematic cfg := fun d => by
  rw [fecParam_of_empty h, fecDefault_data]

/-- A code that keeps its data bits is injective. -/
theorem FecSystematic.injective {cfg : Config} (h : FecSystematic cfg) {d e : BitVec 21} (hde : fecParam cfg d = fecParam cfg e) :
    d = e := by
  rw [← h d, hde, h e]

theorem popcount_eq_add (x : Word) :
    popcount x = ((List.range 31).filter fun k => x.getLsbD (k + 1)).length + (x.getLsbD 0).toNat := by
  rw [popcount, List.range_succ_eq_map, List.countP_cons, List.countP_map, ← List.countP_eq_length_filter]
  cases x.getLsbD 0 <;> rfl

/-- In a word of even parity bit 0 is the parity of the other 31 bits. -/
theorem getLsbD_zero_of_even {x : Word} (h : popcount x % 2 = 0) :
    x.getLsbD 0 = decide (((List.range 31).filter fun k => x.getLsbD (k + 1)).length % 2 = 1) := by
  rw [popcount_eq_add] at h
  cases hbit : x.getLsbD 0 <;> rw [hbit] at h
  · rw [Bool.toNat_false] at h
    exact (decide_eq_false (by omega)).symm
  · rw [Bool.toNat_true] at h
    exact (decide_eq_true (by omega)).symm

/-- Settles O25: (c) follows from (e), and (d) from the even parity of every codeword. -/
theorem defaultFecMeetsTheContract : Obligations.DefaultFecMeetsTheContract := by
  intro cfg hcfg
  have hsys := fecSystematic_of_empty hcfg
  refine ⟨⟨fun d e => hsys.injective, false, fun d => ?_⟩, hsys⟩
  rw [fecParam_of_empty hcfg, Bool.false_xor]
  exact getLsbD_zero_of_even (fecDefault_even d)

/-! ## The consistency check of BUILD_PADDR -/

theorem fecEncode_data {cfg : Config} (h : FecSystematic cfg) (x : Word) :
    (fecEncode cfg x).extractLsb' 11 21 = x.extractLsb' 11 21 := h _

/-- Under contract (e) of R143 the check of R166 compares equal fields. -/
theorem buildPaddr_of_systematic {cfg : Config} (h : FecSystematic cfg) {capcode : Word}
    (hcap : capcode.toNat ≤ pocsagCapcodeMax) (func : BitVec 2) :
    buildPaddr cfg capcode func = .ok (pocsagWrap cfg (paddrTemp capcode func)) := by
  rw [buildPaddr, if_neg (Nat.not_lt.mpr hcap)]
  exact if_pos (fecEncode_data h _)

/-- Settles O26: the default code is systematic. -/
theorem defaultFecNeverFailsTheAddressCheck : Obligations.DefaultFecNeverFailsTheAddressCheck := by
  intro s capcode func hcfg hcap
  refine ⟨pocsagWrap s.cfg (paddrTemp capcode func), ?_⟩
  rw [exec, execBuildPaddr, buildPaddr_of_systematic (fecSystematic_of_empty hcfg) hcap]
  rfl

end Sys2Proof.Machine
end

section
/-! The word builders (R161 to R166): their data words as words of packed fields, and the checks of the two that can fail. -/

namespace Sys2Proof.Machine

/-! ## Data words -/

/-- The FIW data word is the argument word of BUILD_FIW (R102, R113). -/
theorem fiwData_eq (cycle : BitVec 4) (frame : BitVec 7) (roaming rept : BitVec 1) (t : BitVec 4) :
    fiwData cycle frame roaming rept t =
      fieldAt 4 cycle ||| fieldAt 8 frame ||| fieldAt 15 roaming ||| fieldAt 16 rept ||| fieldAt 17 t := rfl

/-- The BIW1 data word is the argument word of BUILD_BIW1 (R103, R113). -/
theorem biw1Data_eq (priority : BitVec 4) (a : BitVec 2) (vectorStart : BitVec 6) (carryOn : BitVec 2) (collapse : BitVec 3) :
    biw1Data priority a vectorStart carryOn collapse =
      fieldAt 4 priority ||| fieldAt 8 a ||| fieldAt 10 vectorStart ||| fieldAt 16 carryOn ||| fieldAt 18 collapse := rfl

/-- The NVW data word is the argument word of BUILD_NVW (R105, R113). -/
theorem nvwData_eq (vectorType : BitVec 3) (messageStart : BitVec 7) (nWords : BitVec 3) (cksum : BitVec 4) :
    nvwData vectorType messageStart nWords cksum =
      fieldAt 4 vectorType ||| fieldAt 7 messageStart ||| fieldAt 14 nWords ||| fieldAt 17 cksum := rfl

theorem fiwData_fields {cycle : BitVec 4} {frame : BitVec 7} {roaming rept : BitVec 1} {t : BitVec 4} {w : Word}
    (hw : w = fiwData cycle frame roaming rept t) :
    w.extractLsb' 0 4 = 0#4 ∧ w.extractLsb' 4 4 = cycle ∧ w.extractLsb' 8 7 = frame ∧ w.extractLsb' 15 1 = roaming ∧
      w.extractLsb' 16 1 = rept ∧ w.extractLsb' 17 4 = t ∧ w.extractLsb' 21 11 = 0#11 := by
  simp [hw, fiwData_eq, BitVec.extractLsb'_or, extractLsb'_fieldAt_self, extractLsb'_fieldAt_disjoint]

theorem biw1Data_fields {priority : BitVec 4} {a : BitVec 2} {vectorStart : BitVec 6} {carryOn : BitVec 2}
    {collapse : BitVec 3} {w : Word} (hw : w = biw1Data priority a vectorStart carryOn collapse) :
    w.extractLsb' 0 4 = 0#4 ∧ w.extractLsb' 4 4 = priority ∧ w.extractLsb' 8 2 = a ∧ w.extractLsb' 10 6 = vectorStart ∧
      w.extractLsb' 16 2 = carryOn ∧ w.extractLsb' 18 3 = collapse ∧ w.extractLsb' 21 11 = 0#11 := by
  simp [hw, biw1Data_eq, BitVec.extractLsb'_or, extractLsb'_fieldAt_self, extractLsb'_fieldAt_disjoint]

theorem nvwData_fields {vectorType : BitVec 3} {messageStart : BitVec 7} {nWords : BitVec 3} {cksum : BitVec 4} {w : Word}
    (hw : w = nvwData vectorType messageStart nWords cksum) :
    w.extractLsb' 0 4 = 0#4 ∧ w.extractLsb' 4 3 = vectorType ∧ w.extractLsb' 7 7 = messageStart ∧
      w.extractLsb' 14 3 = nWords ∧ w.extractLsb' 17 4 = cksum ∧ w.extractLsb' 21 11 = 0#11 := by
  simp [hw, nvwData_eq, BitVec.extractLsb'_or, extractLsb'_fieldAt_self, extractLsb'_fieldAt_disjoint]

/-! ## BUILD_FIW, BUILD_BIW1 and BUILD_NVW -/

/-- Settles O27: the word is `fiwData`. -/
theorem buildFiwWrapsItsFields : Obligations.BuildFiwWrapsItsFields := by
  intro cycle frame roaming rept t s
  exact ⟨fiwData cycle frame roaming rept t, rfl, rfl, fiwData_fields rfl⟩

/-- Settles O28: the word is `biw1Data`. -/
theorem buildBiw1WrapsItsFields : Obligations.BuildBiw1WrapsItsFields := by
  intro priority a vectorStart carryOn collapse s
  exact ⟨biw1Data priority a vectorStart carryOn collapse, rfl, rfl, biw1Data_fields rfl⟩

/-- Settles O29: the word is `nvwData`. -/
theorem buildNvwWrapsItsFields : Obligations.BuildNvwWrapsItsFields := by
  intro vectorType messageStart nWords cksum s
  exact ⟨nvwData vectorType messageStart nWords cksum, rfl, rfl, nvwData_fields rfl⟩

/-! ## BUILD_SADDR -/

theorem exec_buildSaddr (address : Word) (s : State) :
    exec (.buildSaddr address) s = .next (respondResult (buildSaddr s.cfg address) s) := rfl

theorem shortAddressOk_iff (address : Nat) : shortAddressOk address = true ↔ 32769 ≤ address ∧ address ≤ 1966080 := by
  rw [shortAddressOk, Bool.and_eq_true, decide_eq_true_iff, decide_eq_true_iff]
  rfl

theorem buildSaddr_of_in_range (cfg : Config) {address : Word} (h : 32769 ≤ address.toNat ∧ address.toNat ≤ 1966080) :
    buildSaddr cfg address = .ok (flexWrapNc cfg address) := if_pos ((shortAddressOk_iff _).mpr h)

theorem buildSaddr_of_out_of_range (cfg : Config) {address : Word}
    (h : address.toNat < 32769 ∨ 1966080 < address.toNat) : buildSaddr cfg address = .error .range := by
  refine if_neg fun hok => ?_
  have hin := (shortAddressOk_iff _).mp hok
  omega

/-- A short address that gets a word is in range, and the word is its codeword (R164). -/
theorem buildSaddr_ok {cfg : Config} {address v : Word} (h : buildSaddr cfg address = .ok v) :
    address.toNat ≤ 1966080 ∧ v = flexWrapNc cfg address := by
  by_cases hin : 32769 ≤ address.toNat ∧ address.toNat ≤ 1966080
  · rw [buildSaddr_of_in_range cfg hin] at h
    exact ⟨hin.2, (Except.ok.inj h).symm⟩
  · rw [buildSaddr_of_out_of_range cfg (by omega)] at h
    cases h

/-- Settles O30: the range check decides which response is given. -/
theorem buildSaddrChecksItsRange : Obligations.BuildSaddrChecksItsRange := by
  intro address s
  refine ⟨rfl, fun hin => ?_, fun hout => ?_⟩
  · rw [exec_buildSaddr, buildSaddr_of_in_range s.cfg hin]
    rfl
  · rw [exec_buildSaddr, buildSaddr_of_out_of_range s.cfg hout]
    rfl

/-! ## BUILD_PADDR -/

theorem exec_buildPaddr (capcode : Word) (func : BitVec 2) (s : State) :
    exec (.buildPaddr capcode func) s = .next (respondResult (buildPaddr s.cfg capcode func) s) := rfl

theorem buildPaddr_of_above (cfg : Config) {capcode : Word} (func : BitVec 2) (h : 2097151 < capcode.toNat) :
    buildPaddr cfg capcode func = .error .range := if_pos h

theorem buildPaddr_of_in_range (cfg : Config) {capcode : Word} (func : BitVec 2) (h : capcode.toNat ≤ 2097151) :
    buildPaddr cfg capcode func =
      if (fecEncode cfg (paddrTemp capcode func)).extractLsb' 11 21 = (paddrTemp capcode func).extractLsb' 11 21 then
        .ok (fecEncode cfg (paddrTemp capcode func))
      else .error .internalConsistency := if_neg (Nat.not_lt.mpr h)

/-- A capcode in range has no bit above [20:0], so its bits from 3 up are a field of 18 (R106). -/
theorem paddrTemp_eq {capcode : Word} (func : BitVec 2) (h : capcode.toNat ≤ 2097151) :
    paddrTemp capcode func = fieldAt 13 (capcode.extractLsb' 3 18) ||| fieldAt 11 func := by
  have hframe : capcode >>> 3 = (capcode.extractLsb' 3 18).setWidth 32 := by
    apply BitVec.eq_of_toNat_eq
    simp only [BitVec.toNat_ushiftRight, BitVec.toNat_setWidth, BitVec.extractLsb'_toNat, Nat.shiftRight_eq_div_pow]
    omega
  rw [paddrTemp, hframe, fieldAt, fieldAt]

theorem paddrTemp_fields {capcode : Word} {func : BitVec 2} {temp : Word} (htemp : temp = paddrTemp capcode func)
    (h : capcode.toNat ≤ 2097151) :
    temp.extractLsb' 31 1 = 0#1 ∧ temp.extractLsb' 13 18 = capcode.extractLsb' 3 18 ∧ temp.extractLsb' 11 2 = func ∧
      temp.extractLsb' 0 11 = 0#11 := by
  simp [htemp, paddrTemp_eq func h, BitVec.extractLsb'_or, extractLsb'_fieldAt_self, extractLsb'_fieldAt_disjoint]

theorem fieldAt_zero_eq_setWidth {n : Nat} (v : BitVec n) : fieldAt 0 v = v.setWidth 32 := BitVec.shiftLeft_zero _

/-- Settles O31: the range check first, then the comparison of R166 on `paddrTemp`. -/
theorem buildPaddrChecksRangeThenConsistency : Obligations.BuildPaddrChecksRangeThenConsistency := by
  intro capcode func s
  refine ⟨?_, fun habove => ?_, fun hin => ?_⟩
  · rw [encode, fieldAt_zero_eq_setWidth]
  · rw [exec_buildPaddr, buildPaddr_of_above s.cfg func habove]
    rfl
  · obtain ⟨htop, hframe, hfunc, hlow⟩ := paddrTemp_fields (Eq.refl (paddrTemp capcode func)) hin
    refine ⟨paddrTemp capcode func, htop, hframe, hfunc, hlow, ?_⟩
    rw [exec_buildPaddr, buildPaddr_of_in_range s.cfg func hin]
    split
    · rfl
    · rfl

end Sys2Proof.Machine
end

section
/-! What a FLEX word gives back under a systematic code (R167). -/

namespace Sys2Proof.Machine

/-- A field of the reversal is the reversal of the field as far from the other end (R142). -/
theorem extractLsb'_reverse32 (x : Word) {lo n hi : Nat} (h : lo + n + hi = 32) :
    (reverse32 x).extractLsb' lo n = (x.extractLsb' hi n).reverse := by
  apply BitVec.eq_of_getLsbD_eq
  intro k hk
  have hpos : 31 - (lo + k) = hi + (n - 1 - k) := by omega
  have hin : n - 1 - k < n := by omega
  rw [BitVec.getLsbD_reverse, BitVec.getMsbD, BitVec.getLsbD_extractLsb', BitVec.getLsbD_extractLsb',
    reverse32_getLsbD x _ (by omega), hpos]
  simp [hk, hin]

/-- The mask of R167 keeps bits [20:0]. -/
theorem and_dataMask (x : Word) : x &&& 0x001FFFFF#32 = fieldAt 0 (x.extractLsb' 0 21) := by
  apply BitVec.eq_of_toNat_eq
  have hmask : x.toNat &&& 0x001FFFFF = x.toNat % 2 ^ 21 := Nat.and_two_pow_sub_one_eq_mod x.toNat 21
  rw [fieldAt_zero_eq_setWidth, BitVec.toNat_and, BitVec.toNat_setWidth, BitVec.extractLsb'_toNat, Nat.shiftRight_zero]
  exact hmask.trans (Nat.mod_eq_of_lt (by omega)).symm

/-- Under contract (e) of R143 bits [20:0] of a FLEX word's reversal are those of the word coded (R167). -/
theorem reverse32_flexWrapNc_data {cfg : Config} (h : FecSystematic cfg) (x : Word) :
    (reverse32 (flexWrapNc cfg x)).extractLsb' 0 21 = x.extractLsb' 0 21 := by
  calc (reverse32 (flexWrapNc cfg x)).extractLsb' 0 21
      = ((fecEncode cfg (reverse32 x)).extractLsb' 11 21).reverse := extractLsb'_reverse32 _ rfl
    _ = ((reverse32 x).extractLsb' 11 21).reverse := by rw [fecEncode_data h]
    _ = (reverse32 (reverse32 x)).extractLsb' 0 21 := (extractLsb'_reverse32 _ rfl).symm
    _ = x.extractLsb' 0 21 := by rw [reverse32_reverse32]

/-- A word of 21 data bits is recovered whole (R167). -/
theorem reverse32_flexWrapNc {cfg : Config} (h : FecSystematic cfg) {x : Word} (hclean : x.extractLsb' 21 11 = 0#11) :
    reverse32 (flexWrapNc cfg x) &&& 0x001FFFFF#32 = x := by
  rw [and_dataMask, reverse32_flexWrapNc_data h, fieldAt_extractLsb'_of_clean rfl rfl (BitVec.eq_nil _) hclean]

/-- The checksum leaves the bits above the data word alone (R140). -/
theorem addChecksum_clean {w : Word} (h : w.extractLsb' 21 11 = 0#11) : (addChecksum w).extractLsb' 21 11 = 0#11 := by
  have hfield (u : Word) : u.extractLsb' 21 11 = (u.extractLsb' 4 28).extractLsb' 17 11 :=
    (extractLsb'_extractLsb'_add (lo := 4) (n := 28) (hi := 17) u (by decide)).symm
  rw [hfield, addChecksum_high, ← hfield, h]

/-- FLEX_WRAP is FLEX_WRAP_NC of the checksummed word (R160). -/
theorem reverse32_flexWrap {cfg : Config} (h : FecSystematic cfg) {w : Word} (hclean : w.extractLsb' 21 11 = 0#11) :
    reverse32 (flexWrap cfg w) &&& 0x001FFFFF#32 = addChecksum w := reverse32_flexWrapNc h (addChecksum_clean hclean)

/-- A number below 2^21 has no bit above [20:0]. -/
theorem extractLsb'_high_of_lt {x : Word} (h : x.toNat < 2 ^ 21) : x.extractLsb' 21 11 = 0#11 := by
  apply BitVec.eq_of_toNat_eq
  rw [BitVec.extractLsb'_toNat, Nat.shiftRight_eq_div_pow, Nat.div_eq_of_lt h]
  rfl

/-- Settles O32: each builder codes a word of 21 data bits. -/
theorem flexWordsAreRecoverable : Obligations.FlexWordsAreRecoverable := by
  intro cfg hsys
  refine ⟨fun cycle frame roaming rept t => ?_, fun priority a vectorStart carryOn collapse => ?_,
    fun vectorType messageStart nWords cksum => ?_, fun address v hv => ?_⟩
  · obtain ⟨-, -, -, -, -, -, hclean⟩ := fiwData_fields (Eq.refl (fiwData cycle frame roaming rept t))
    exact reverse32_flexWrap hsys hclean
  · obtain ⟨-, -, -, -, -, -, hclean⟩ := biw1Data_fields (Eq.refl (biw1Data priority a vectorStart carryOn collapse))
    exact reverse32_flexWrap hsys hclean
  · obtain ⟨-, -, -, -, -, hclean⟩ := nvwData_fields (Eq.refl (nvwData vectorType messageStart nWords cksum))
    exact reverse32_flexWrap hsys hclean
  · obtain ⟨hrange, rfl⟩ := buildSaddr_ok hv
    exact reverse32_flexWrapNc hsys (extractLsb'_high_of_lt (by omega))

end Sys2Proof.Machine
end

section
/-! What stands where in a bit queue (R200, R231, R255): a concatenation of logical bits stands at a position when its parts
stand one after another from there. -/

namespace Sys2Proof.Machine

section Positions
variable {q : List Bit} {rep pos : Nat}

/-- A replicated batch stands at the start of the queue it makes up (R255). -/
theorem bitsAt_replicateBits (rep : Nat) (bits : List Bit) : BitsAt (replicateBits rep bits) rep 0 bits := by
  intro k hk j hj
  rw [Nat.zero_add]
  exact replicateBits_getElem? rep bits k j hk hj

theorem BitsAt.of_pos_eq {pos' : Nat} {bits : List Bit} (h : BitsAt q rep pos bits) (hpos : pos = pos') :
    BitsAt q rep pos' bits := hpos ▸ h

theorem bitsAt_append {xs ys : List Bit} :
    BitsAt q rep pos (xs ++ ys) ↔ BitsAt q rep pos xs ∧ BitsAt q rep (pos + xs.length) ys := by
  constructor
  · refine fun h => ⟨fun k hk j hj => ?_, fun k hk j hj => ?_⟩
    · rw [h k (by rw [List.length_append]; omega) j hj, List.getElem?_append_left hk]
    · rw [Nat.add_assoc, h (xs.length + k) (by rw [List.length_append]; omega) j hj,
        List.getElem?_append_right (Nat.le_add_right _ _), Nat.add_sub_cancel_left]
  · rintro ⟨hx, hy⟩ k hk j hj
    rcases Nat.lt_or_ge k xs.length with hlt | hge
    · rw [hx k hlt j hj, List.getElem?_append_left hlt]
    · obtain ⟨l, rfl⟩ := Nat.exists_eq_add_of_le hge
      have hl : l < ys.length := by rw [List.length_append] at hk; omega
      rw [← Nat.add_assoc, hy l hl j hj, List.getElem?_append_right hge, Nat.add_sub_cancel_left]

theorem wordAt_iff_bitsAt {w : Word} : WordAt q rep pos w ↔ BitsAt q rep pos (msbBits w) := by
  refine forall_congr' fun k => ?_
  rw [msbBits_length]
  refine forall_congr' fun hk => ?_
  rw [msbBits_getElem? w k hk]

theorem length_flatMap_range {α : Type} (n : Nat) {part : Nat → List α} {len : Nat} (hlen : ∀ i, (part i).length = len) :
    ((List.range n).flatMap part).length = n * len := by
  simp [List.length_flatMap, hlen]

/-- Parts of one length `len`: part `i` stands at `i * len`. -/
theorem BitsAt.part_of_range {n : Nat} {part : Nat → List Bit} {len : Nat}
    (h : BitsAt q rep pos ((List.range n).flatMap part)) (hlen : ∀ i, (part i).length = len) {i : Nat} (hi : i < n) :
    BitsAt q rep (pos + i * len) (part i) := by
  induction n with
  | zero => exact absurd hi (Nat.not_lt_zero i)
  | succ n ih =>
    rw [List.range_succ, List.flatMap_append, bitsAt_append, length_flatMap_range n hlen, List.flatMap_singleton] at h
    obtain ⟨hinit, hlast⟩ := h
    rcases Nat.lt_succ_iff_lt_or_eq.mp hi with hlt | rfl
    · exact ih hinit hlt
    · exact hlast

end Positions

section ProgramBits
variable (cfg : Config)

@[simp] theorem programBits_nil : programBits cfg [] = [] := rfl

@[simp] theorem programBits_cons (i : Instr) (is : List Instr) :
    programBits cfg (i :: is) = microBits cfg i ++ programBits cfg is := rfl

@[simp] theorem programBits_append (is js : List Instr) :
    programBits cfg (is ++ js) = programBits cfg is ++ programBits cfg js := List.flatMap_append

theorem programBits_flatMap {α : Type} (l : List α) (ops : α → List Instr) :
    programBits cfg (l.flatMap ops) = l.flatMap fun x => programBits cfg (ops x) := List.flatMap_assoc

@[simp] theorem microBits_qword (w : Word) : microBits cfg (.qword w) = msbBits w := rfl
@[simp] theorem microBits_flexBs : microBits cfg (.qvec pidFlexBs) = cfg.flexBs := rfl
@[simp] theorem microBits_flexB : microBits cfg (.qvec pidFlexB) = cfg.flexB := rfl
@[simp] theorem microBits_flexCb : microBits cfg (.qvec pidFlexCb) = cfg.flexCb := rfl

end ProgramBits

end Sys2Proof.Machine
end

section
/-! CONSTRUCT with good arguments (R283, R314), for either protocol: which checks pass, and what the selected batch leaves. -/

namespace Sys2Proof.Machine

theorem msgTypeOf_of_lt_two {code : BitVec 8} (h : code.toNat < 2) : ∃ mt, msgTypeOf code = some mt := by
  have hcode : code.toNat = 0 ∨ code.toNat = 1 := by omega
  rcases hcode with h | h
  · exact ⟨.numeric, by simp only [msgTypeOf, h]⟩
  · exact ⟨.alpha, by simp only [msgTypeOf, h]⟩

/-- A symbol rate that is `rep` times the baud rate passes the checks, with `rep` as the replication factor (R250). -/
theorem checkArguments_of_multiple {protocol msgType : BitVec 8} {baudRate symbolRate : Word} {p : Protocol} {mt : MsgType}
    {rep : Nat} (hp : protocolOf protocol = some p) (hmt : msgTypeOf msgType = some mt) (hrep : 1 ≤ rep)
    (hbaud : baudRate ≠ 0#32) (hrate : symbolRate.toNat = rep * baudRate.toNat) :
    checkArguments protocol msgType baudRate symbolRate = .ok (p, mt, rep) := by
  have hbaudPos : 0 < baudRate.toNat := Nat.pos_of_ne_zero fun h => hbaud (BitVec.eq_of_toNat_eq h)
  have hratePos : 0 < rep * baudRate.toNat := Nat.mul_pos hrep hbaudPos
  have hgood : ¬ (baudRate.toNat = 0 ∨ rep * baudRate.toNat = 0 ∨ rep * baudRate.toNat % baudRate.toNat ≠ 0) := by
    rw [Nat.mul_mod_left]
    omega
  simp only [checkArguments, hp, hmt, hrate, if_neg hgood, Nat.mul_div_cancel rep hbaudPos]

section Batch
variable {protocol msgType : BitVec 8} {baudRate symbolRate capcode : Word} {body : Text} {s : State} {p : Protocol}
  {mt : MsgType} {rep : Nat} {ops : List Instr}

/-- From a consistent IDLE state, whose queue is empty, a batch that fits becomes the whole queue (R283). -/
theorem exec_construct_of_room (hs : s.Consistent) (hidle : s.phase = .idle)
    (hcheck : checkArguments protocol msgType baudRate symbolRate = .ok (p, mt, rep))
    (hbatch : batchProgram s.cfg p capcode mt body = .ok ops)
    (hroom : rep * (programBits s.cfg ops).length ≤ s.cfg.queueCapacity.val) :
    exec (.construct protocol msgType baudRate symbolRate capcode body) s =
      .next { s with
        phase := .ready, err := 0#3, q := replicateBits rep (programBits s.cfg ops), responses := s.responses ++ [.ok] } := by
  have hq : s.q = [] := hs.readyOnly (by simp [hidle])
  rw [exec_construct_of_checks hidle hcheck hbatch, runProgram_eq rep ops s hs.bounded (batchProgram_ok hbatch),
    if_pos (by simpa [hq] using hroom)]
  simp [finishConstruct, respond, noError, hq, hs.boundary]

/-- A batch that does not fit is CapacityError (R256, R313). -/
theorem exec_construct_of_full (hs : s.Consistent) (hidle : s.phase = .idle)
    (hcheck : checkArguments protocol msgType baudRate symbolRate = .ok (p, mt, rep))
    (hbatch : batchProgram s.cfg p capcode mt body = .ok ops)
    (hfull : s.cfg.queueCapacity.val < rep * (programBits s.cfg ops).length) :
    exec (.construct protocol msgType baudRate symbolRate capcode body) s = .next (errorState 5#3 s) := by
  have hno : ¬ s.q.length + rep * (programBits s.cfg ops).length ≤ s.cfg.queueCapacity.val := by omega
  rw [exec_construct_of_checks hidle hcheck hbatch, runProgram_eq rep ops s hs.bounded (batchProgram_ok hbatch), if_neg hno,
    enterError_eq_errorState]
  rfl

end Batch

end Sys2Proof.Machine
end

section
/-! The FLEX batch (R190 to R200): the logical bits of a block, of a frame and of the ten frames, and where their parts stand. -/

namespace Sys2Proof.Machine

/-- A short address in range selects the ten frames, each block with that address's codeword (R191, R192). -/
theorem flexBatch_of_in_range {cfg : Config} {capcode : Word} (hlow : 32769 ≤ flexAddress cfg capcode)
    (hhigh : flexAddress cfg capcode ≤ 1966080) :
    flexBatch cfg capcode =
      .ok ((List.range 10).flatMap
        (flexFrameOps cfg (fecEncode cfg (reverse32 (BitVec.ofNat 32 (flexAddress cfg capcode)))))) := by
  have haddr : (BitVec.ofNat 32 (flexAddress cfg capcode)).toNat = flexAddress cfg capcode := by
    rw [BitVec.toNat_ofNat]
    exact Nat.mod_eq_of_lt (by omega)
  rw [flexBatch, if_pos ((shortAddressOk_iff _).mpr ⟨hlow, hhigh⟩),
    buildSaddr_of_in_range cfg (by rw [haddr]; exact ⟨hlow, hhigh⟩)]
  rfl

section Block
variable (cfg : Config) (saddr : Word) (p : FlexBlock)

/-- The four words and four fillers of a block (R197). -/
theorem programBits_flexBlockOps : programBits cfg (flexBlockOps cfg saddr p) =
    msbBits (buildBiw1 cfg p.priority p.a p.vectorStart p.carryOn p.collapse) ++ (msbBits saddr ++
      (msbBits (buildNvw cfg p.vectorType p.messageStart p.nWords p.msgCksum) ++ (msbBits p.msgCodeword ++
        (List.range 4).flatMap fun _ => cfg.flexBs))) := by
  simp [flexBlockOps, qrepv, List.range_succ, List.replicate_succ]

theorem programBits_flexBlockOps_length :
    (programBits cfg (flexBlockOps cfg saddr p)).length = 128 + 4 * cfg.flexBs.length := by
  rw [programBits_flexBlockOps]
  simp only [List.length_append, msbBits_length, length_flatMap_range 4 fun _ => rfl]
  omega

variable {cfg saddr p}

/-- The positions inside a block (R200). -/
theorem flexBlock_positions {q : List Bit} {rep pos : Nat}
    (h : BitsAt q rep pos (programBits cfg (flexBlockOps cfg saddr p))) :
    WordAt q rep pos (buildBiw1 cfg p.priority p.a p.vectorStart p.carryOn p.collapse) ∧
      WordAt q rep (pos + 32) saddr ∧
      WordAt q rep (pos + 64) (buildNvw cfg p.vectorType p.messageStart p.nWords p.msgCksum) ∧
      WordAt q rep (pos + 96) p.msgCodeword ∧
      ∀ c, c < 4 → BitsAt q rep (pos + 128 + c * cfg.flexBs.length) cfg.flexBs := by
  simp only [programBits_flexBlockOps, bitsAt_append, msbBits_length, Nat.add_assoc, Nat.reduceAdd] at h
  obtain ⟨hbiw1, hsaddr, hnvw, hmsg, hfill⟩ := h
  simp only [wordAt_iff_bitsAt]
  exact ⟨hbiw1, hsaddr, hnvw, hmsg, fun c hc => hfill.part_of_range (fun _ => rfl) hc⟩

end Block

/-- The frame length of R199. -/
def flexFrameLength (cfg : Config) : Nat := 45 * cfg.flexBs.length + cfg.flexB.length + cfg.flexCb.length + 1504

section Frame
variable (cfg : Config) (saddr : Word) (f : Nat)

/-- A frame's header, frame-info word and control-block pattern, then its eleven blocks (R193 to R196). -/
theorem programBits_flexFrameOps : programBits cfg (flexFrameOps cfg saddr f) =
    cfg.flexBs ++ (msbBits cfg.flexA1 ++ (msbBits (~~~cfg.flexA1) ++ (cfg.flexB ++
      (msbBits (buildFiw cfg 0#4 (BitVec.ofNat 7 f) cfg.flexRoaming cfg.flexRepeat cfg.flexT) ++ (cfg.flexCb ++
        (List.range 11).flatMap fun b => programBits cfg (flexBlockOps cfg saddr (flexBlock cfg f b))))))) := by
  rw [flexFrameOps, programBits_append, programBits_flatMap]
  simp [flexHeaderOps]

theorem programBits_flexFrameOps_length : (programBits cfg (flexFrameOps cfg saddr f)).length = flexFrameLength cfg := by
  rw [programBits_flexFrameOps]
  simp only [List.length_append, msbBits_length,
    length_flatMap_range 11 fun b => programBits_flexBlockOps_length cfg saddr (flexBlock cfg f b), flexFrameLength]
  omega

variable {cfg saddr f}

/-- The positions inside a frame (R200), down to its blocks. -/
theorem flexFrame_positions {q : List Bit} {rep pos : Nat}
    (h : BitsAt q rep pos (programBits cfg (flexFrameOps cfg saddr f))) :
    BitsAt q rep pos cfg.flexBs ∧
      WordAt q rep (pos + cfg.flexBs.length) cfg.flexA1 ∧
      WordAt q rep (pos + cfg.flexBs.length + 32) (~~~cfg.flexA1) ∧
      BitsAt q rep (pos + cfg.flexBs.length + 64) cfg.flexB ∧
      WordAt q rep (pos + cfg.flexBs.length + 64 + cfg.flexB.length)
        (buildFiw cfg 0#4 (BitVec.ofNat 7 f) cfg.flexRoaming cfg.flexRepeat cfg.flexT) ∧
      BitsAt q rep (pos + cfg.flexBs.length + 96 + cfg.flexB.length) cfg.flexCb ∧
      ∀ b, b < 11 → BitsAt q rep
        (pos + cfg.flexBs.length + 96 + cfg.flexB.length + cfg.flexCb.length + b * (128 + 4 * cfg.flexBs.length))
        (programBits cfg (flexBlockOps cfg saddr (flexBlock cfg f b))) := by
  simp only [programBits_flexFrameOps, bitsAt_append, msbBits_length] at h
  obtain ⟨hbs, ha1, hna1, hb, hfiw, hcb, hblocks⟩ := h
  simp only [wordAt_iff_bitsAt]
  refine ⟨hbs, ha1, hna1, hb.of_pos_eq (by omega), hfiw.of_pos_eq (by omega), hcb.of_pos_eq (by omega), fun b hlt => ?_⟩
  have hblock := hblocks.part_of_range (fun i => programBits_flexBlockOps_length cfg saddr (flexBlock cfg f i)) hlt
  exact hblock.of_pos_eq (by omega)

end Frame

theorem programBits_flexFrames_length (cfg : Config) (saddr : Word) :
    (programBits cfg ((List.range 10).flatMap (flexFrameOps cfg saddr))).length = 10 * flexFrameLength cfg := by
  rw [programBits_flatMap]
  exact length_flatMap_range 10 (programBits_flexFrameOps_length cfg saddr)

/-- Frame `f` of the queued batch stands at `f * FL` (R200). -/
theorem flexFrames_positions (cfg : Config) (saddr : Word) (rep : Nat) {f : Nat} (hf : f < 10) :
    BitsAt (replicateBits rep (programBits cfg ((List.range 10).flatMap (flexFrameOps cfg saddr)))) rep
      (f * flexFrameLength cfg) (programBits cfg (flexFrameOps cfg saddr f)) := by
  have hall := bitsAt_replicateBits rep (programBits cfg ((List.range 10).flatMap (flexFrameOps cfg saddr)))
  rw [programBits_flatMap] at hall ⊢
  exact (hall.part_of_range (programBits_flexFrameOps_length cfg saddr) hf).of_pos_eq (Nat.zero_add _)

/-- Settles O42: CONSTRUCT queues the batch or takes CapacityError by its length, and the batch is read frame by frame. -/
theorem flexConstructBuildsTenFrames : Obligations.FlexConstructBuildsTenFrames := by
  intro msgType baudRate symbolRate capcode body rep s hs hidle hmsg hrep hbaud hrate hlow hhigh
  obtain ⟨mt, hmt⟩ := msgTypeOf_of_lt_two hmsg
  have hcheck := checkArguments_of_multiple (protocol := 0#8) (p := .flex) rfl hmt hrep hbaud hrate
  have hbatch : batchProgram s.cfg .flex capcode mt body = .ok _ := flexBatch_of_in_range hlow hhigh
  have hlen := programBits_flexFrames_length s.cfg
    (fecEncode s.cfg (reverse32 (BitVec.ofNat 32 (flexAddress s.cfg capcode))))
  refine ⟨fun hfull => ?_, fun hroom => ?_⟩
  · exact exec_construct_of_full hs hidle hcheck hbatch (by rw [hlen]; exact hfull)
  · refine ⟨_, exec_construct_of_room hs hidle hcheck hbatch (by rw [hlen]; exact hroom), ?_, fun f hf => ?_⟩
    · rw [replicateBits_length, hlen]
      rfl
    · obtain ⟨hbs, ha1, hna1, hb, hfiw, hcb, hblocks⟩ := flexFrame_positions (flexFrames_positions s.cfg _ rep hf)
      exact ⟨hbs, ha1, hna1, hb, hfiw, hcb, fun b hlt => flexBlock_positions (hblocks b hlt)⟩

end Sys2Proof.Machine
end

section
/-! The POCSAG batch (R220 to R231): the words after the preamble as groups of seventeen, and where their slots stand. -/

namespace Sys2Proof.Machine

/-! ## Words in the queue -/

section Words
variable {q : List Bit} {rep : Nat}

theorem programBits_map_qword (cfg : Config) (ws : List Word) : programBits cfg (ws.map .qword) = ws.flatMap msbBits :=
  List.flatMap_map Instr.qword (microBits cfg) ws

theorem flatMap_msbBits_length (ws : List Word) : (ws.flatMap msbBits).length = 32 * ws.length := by
  simp [List.length_flatMap, Nat.mul_comm]

theorem WordAt.of_pos_eq {pos pos' : Nat} {w : Word} (h : WordAt q rep pos w) (hpos : pos = pos') : WordAt q rep pos' w :=
  hpos ▸ h

/-- Word `i` of consecutive words stands 32 bits per word behind the first (R74). -/
theorem BitsAt.word {pos i : Nat} {ws : List Word} {w : Word} (h : BitsAt q rep pos (ws.flatMap msbBits))
    (hw : ws[i]? = some w) : WordAt q rep (pos + 32 * i) w := by
  induction ws generalizing pos i with
  | nil => simp at hw
  | cons v ws ih =>
    rw [List.flatMap_cons, bitsAt_append, msbBits_length] at h
    obtain ⟨hhead, htail⟩ := h
    rw [wordAt_iff_bitsAt]
    cases i with
    | zero =>
      obtain rfl : v = w := by simpa using hw
      exact hhead
    | succ i => exact (wordAt_iff_bitsAt.mp (ih htail hw)).of_pos_eq (by omega)

end Words

/-! ## Slots and groups -/

section Groups
variable (idle : Word)

@[simp] theorem fillSlots_length (n : Nat) (ws : List Word) : (fillSlots idle n ws).length = n := by
  induction n, ws using fillSlots.induct with
  | case1 ws => rfl
  | case2 n ih => simp [fillSlots, ih]
  | case3 n w ws ih => simp [fillSlots, ih]

/-- Slot `k` holds body word `k`, or idle once the body is exhausted (R226, R227). -/
theorem fillSlots_getElem? {n k : Nat} (ws : List Word) (hk : k < n) :
    (fillSlots idle n ws)[k]? = some (ws.getD k idle) := by
  induction n, ws using fillSlots.induct generalizing k with
  | case1 ws => exact absurd hk (Nat.not_lt_zero k)
  | case2 n ih =>
    cases k with
    | zero => rfl
    | succ k => simpa [fillSlots] using ih (Nat.lt_of_succ_lt_succ hk)
  | case3 n w ws ih =>
    cases k with
    | zero => rfl
    | succ k => simpa [fillSlots] using ih (Nat.lt_of_succ_lt_succ hk)

/-- Group 0 (R220 steps 4 and 5): sync, idle up to the address word's frame, the address word, the first body words. -/
def firstGroup (fo : Nat) (addrWord : Word) (words : List Word) : List Word :=
  pocsagSync :: (List.replicate (2 * fo) idle ++ addrWord :: fillSlots idle (15 - 2 * fo) words)

/-- A later group (R227): sync and 16 slots. -/
def bodyGroup (ws : List Word) : List Word := pocsagSync :: fillSlots idle 16 ws

theorem firstGroup_length {fo : Nat} (addrWord : Word) (words : List Word) (hfo : fo < 8) :
    (firstGroup idle fo addrWord words).length = 17 := by
  simp only [firstGroup, List.length_cons, List.length_append, List.length_replicate, fillSlots_length]
  omega

theorem bodyGroup_length (ws : List Word) : (bodyGroup idle ws).length = 17 := by
  rw [bodyGroup, List.length_cons, fillSlots_length]

/-- The loop of R227 with enough fuel makes one group for every 16 body words begun. -/
theorem furtherGroups_eq {fuel : Nat} {ws : List Word} (h : ws.length ≤ fuel) :
    furtherGroups idle fuel ws =
      (List.range ((ws.length + 15) / 16)).flatMap fun g => bodyGroup idle (ws.drop (16 * g)) := by
  induction fuel, ws using furtherGroups.induct with
  | case1 ws =>
    obtain rfl : ws = [] := List.length_eq_zero_iff.mp (Nat.le_zero.mp h)
    rfl
  | case2 fuel => rfl
  | case3 fuel ws hne ih =>
    have hpos : 0 < ws.length := List.length_pos_iff.mpr hne
    have hcount : (ws.length + 15) / 16 = ((ws.drop 16).length + 15) / 16 + 1 := by
      rw [List.length_drop]
      omega
    rw [furtherGroups, ih (by rw [List.length_drop]; omega), hcount, List.range_succ_eq_map, List.flatMap_cons,
      List.flatMap_map]
    · simp [bodyGroup, Nat.mul_add, Nat.add_comm]
    · exact hne

/-- The words after the preamble are group 0 and the groups of the body words left over. -/
theorem pocsagWords_eq (fo : Nat) (addrWord : Word) (words : List Word) :
    pocsagWords idle fo addrWord words = firstGroup idle fo addrWord words ++
      (List.range ((words.length - (15 - 2 * fo) + 15) / 16)).flatMap fun g =>
        bodyGroup idle (words.drop (15 - 2 * fo + 16 * g)) := by
  rw [pocsagWords, furtherGroups_eq idle (by rw [List.length_drop]; omega)]
  simp [firstGroup]

variable {idle} {q : List Bit} {rep pos : Nat}

/-- The positions inside group 0 (R231). -/
theorem firstGroup_positions {fo : Nat} {addrWord : Word} {words : List Word}
    (h : BitsAt q rep pos ((firstGroup idle fo addrWord words).flatMap msbBits)) :
    WordAt q rep pos pocsagSync ∧
      (∀ slot, slot < 2 * fo → WordAt q rep (pos + 32 + 32 * slot) idle) ∧
      WordAt q rep (pos + 32 + 64 * fo) addrWord ∧
      ∀ k, k < 15 - 2 * fo → WordAt q rep (pos + 32 + 32 * (2 * fo + 1 + k)) (words.getD k idle) := by
  rw [firstGroup, List.flatMap_cons, List.flatMap_append, List.flatMap_cons, bitsAt_append, bitsAt_append, bitsAt_append,
    flatMap_msbBits_length, List.length_replicate, msbBits_length, msbBits_length] at h
  obtain ⟨hsync, hidle, haddr, hbody⟩ := h
  refine ⟨wordAt_iff_bitsAt.mpr hsync, fun slot hslot => hidle.word ?_, ?_, fun k hk => ?_⟩
  · rw [List.getElem?_replicate, if_pos hslot]
  · exact wordAt_iff_bitsAt.mpr (haddr.of_pos_eq (by omega))
  · exact (hbody.word (fillSlots_getElem? idle words hk)).of_pos_eq (by omega)

/-- The positions inside a later group (R231). -/
theorem bodyGroup_positions {ws : List Word} (h : BitsAt q rep pos ((bodyGroup idle ws).flatMap msbBits)) :
    WordAt q rep pos pocsagSync ∧ ∀ r, r < 16 → WordAt q rep (pos + 32 + 32 * r) (ws.getD r idle) := by
  rw [bodyGroup, List.flatMap_cons, bitsAt_append, msbBits_length] at h
  obtain ⟨hsync, hslots⟩ := h
  exact ⟨wordAt_iff_bitsAt.mpr hsync, fun r hr => hslots.word (fillSlots_getElem? idle ws hr)⟩

/-- Group `g` stands 544 bits per group behind group 0 (R230, R231). -/
theorem pocsagWords_groups {fo : Nat} {addrWord : Word} {words : List Word} (hfo : fo < 8)
    (h : BitsAt q rep pos ((pocsagWords idle fo addrWord words).flatMap msbBits)) :
    BitsAt q rep pos ((firstGroup idle fo addrWord words).flatMap msbBits) ∧
      ∀ g, g < (words.length - (15 - 2 * fo) + 15) / 16 → BitsAt q rep (pos + 544 * (1 + g))
        ((bodyGroup idle (words.drop (15 - 2 * fo + 16 * g))).flatMap msbBits) := by
  rw [pocsagWords_eq, List.flatMap_append, List.flatMap_assoc, bitsAt_append, flatMap_msbBits_length,
    firstGroup_length idle addrWord words hfo] at h
  obtain ⟨hfirst, hlater⟩ := h
  have hlen (g : Nat) : ((bodyGroup idle (words.drop (15 - 2 * fo + 16 * g))).flatMap msbBits).length = 544 := by
    rw [flatMap_msbBits_length, bodyGroup_length]
  exact ⟨hfirst, fun g hg => (hlater.part_of_range hlen hg).of_pos_eq (by omega)⟩

end Groups

/-- Group 0, and one more group for every 16 body words begun that group 0 has no slot for (R230). -/
theorem pocsagWords_length (idle : Word) {fo : Nat} (addrWord : Word) (words : List Word) (hfo : fo < 8) :
    (pocsagWords idle fo addrWord words).length = 17 * (1 + (words.length - (15 - 2 * fo) + 15) / 16) := by
  rw [pocsagWords_eq, List.length_append, firstGroup_length idle addrWord words hfo,
    length_flatMap_range _ fun g => bodyGroup_length idle (words.drop (15 - 2 * fo + 16 * g))]
  omega

/-! ## The batch -/

theorem msgTypeOf_of_code {msgType : BitVec 8} {mt : MsgType}
    (h : msgType = 0#8 ∧ mt = .numeric ∨ msgType = 1#8 ∧ mt = .alpha) : msgTypeOf msgType = some mt := by
  rcases h with ⟨rfl, rfl⟩ | ⟨rfl, rfl⟩
  · rfl
  · rfl

theorem frameOffset_eq_mod (capcode : Word) : frameOffset capcode = capcode.toNat % 8 := by
  rw [frameOffset, BitVec.toNat_and]
  exact Nat.and_two_pow_sub_one_eq_mod capcode.toNat 3

@[simp] theorem microBits_preamble (cfg : Config) : microBits cfg (.qvec pidPreamble) = cfg.pocsagPreamble := rfl

/-- The batch of `pocsagBatch`: the preamble, then the groups' words. -/
def pocsagOps (cfg : Config) (fo : Nat) (addrWord : Word) (words : List Word) : List Instr :=
  .qvec pidPreamble :: (pocsagWords cfg.pocsagIdle fo addrWord words).map .qword

/-- An address word that passes its checks selects the batch (R220, R223). -/
theorem pocsagBatch_of_address {cfg : Config} {capcode addrWord : Word} {mt : MsgType} (body : Text)
    (haddr : buildPaddr cfg capcode (pocsagFunc cfg mt) = .ok addrWord) :
    pocsagBatch cfg capcode mt body = .ok (pocsagOps cfg (capcode.toNat % 8) addrWord (pocsagBody cfg mt body)) := by
  rw [pocsagBatch, haddr, frameOffset_eq_mod]
  rfl

section Batch
variable (cfg : Config) {fo : Nat} (addrWord : Word) (words : List Word)

theorem programBits_pocsagOps : programBits cfg (pocsagOps cfg fo addrWord words) =
    cfg.pocsagPreamble ++ (pocsagWords cfg.pocsagIdle fo addrWord words).flatMap msbBits := by
  rw [pocsagOps, programBits_cons, microBits_preamble, programBits_map_qword]

theorem programBits_pocsagOps_length (hfo : fo < 8) : (programBits cfg (pocsagOps cfg fo addrWord words)).length =
    cfg.pocsagPreamble.length + 544 * (1 + (words.length - (15 - 2 * fo) + 15) / 16) := by
  rw [programBits_pocsagOps, List.length_append, flatMap_msbBits_length, pocsagWords_length cfg.pocsagIdle addrWord words hfo]
  omega

/-- The preamble, group 0 and the later groups in the queued batch (R231). -/
theorem pocsagOps_groups (rep : Nat) (hfo : fo < 8) :
    let q := replicateBits rep (programBits cfg (pocsagOps cfg fo addrWord words))
    BitsAt q rep 0 cfg.pocsagPreamble ∧
      BitsAt q rep cfg.pocsagPreamble.length ((firstGroup cfg.pocsagIdle fo addrWord words).flatMap msbBits) ∧
      ∀ g, g < (words.length - (15 - 2 * fo) + 15) / 16 → BitsAt q rep (cfg.pocsagPreamble.length + 544 * (1 + g))
        ((bodyGroup cfg.pocsagIdle (words.drop (15 - 2 * fo + 16 * g))).flatMap msbBits) := by
  intro q
  have hall : BitsAt q rep 0 (programBits cfg (pocsagOps cfg fo addrWord words)) := bitsAt_replicateBits rep _
  rw [programBits_pocsagOps, bitsAt_append, Nat.zero_add] at hall
  obtain ⟨hpreamble, hwords⟩ := hall
  exact ⟨hpreamble, pocsagWords_groups hfo hwords⟩

end Batch

/-- No case split on whether the body fits group 0: with nothing left over the count of later groups is 0 (R230). -/
theorem groupCount_eq (n first : Nat) :
    (if n ≤ first then 1 else 1 + (n - first + 15) / 16) = 1 + (n - first + 15) / 16 := by
  split
  · omega
  · rfl

/-- Body word `j` of the later groups is in slot `j % 16` of the later group `j / 16` (R231). -/
theorem getD_drop_group (words : List Word) (first j : Nat) (idle : Word) :
    (words.drop (first + 16 * (j / 16))).getD (j % 16) idle = words.getD (first + j) idle := by
  rw [List.getD_eq_getElem?_getD, List.getElem?_drop, Nat.add_assoc, Nat.div_add_mod, List.getD_eq_getElem?_getD]

/-- Settles O43: CONSTRUCT queues the batch or takes CapacityError by its length, and the batch is read group by group. -/
theorem pocsagConstructBuildsItsGroups : Obligations.PocsagConstructBuildsItsGroups := by
  intro msgType mt baudRate symbolRate capcode addrWord body rep s hs hidle hmsg hrep hbaud hrate haddr words fo first G nP L
  have hcheck := checkArguments_of_multiple (protocol := 1#8) (p := .pocsag) rfl (msgTypeOf_of_code hmsg) hrep hbaud hrate
  have hbatch : batchProgram s.cfg .pocsag capcode mt body = .ok (pocsagOps s.cfg fo addrWord words) :=
    pocsagBatch_of_address body haddr
  have hfo : fo < 8 := Nat.mod_lt _ (by decide)
  have hG : G = 1 + (words.length - first + 15) / 16 := groupCount_eq words.length first
  have hlen : (programBits s.cfg (pocsagOps s.cfg fo addrWord words)).length = L := by
    rw [programBits_pocsagOps_length s.cfg addrWord words hfo, ← hG]
  refine ⟨fun hfull => exec_construct_of_full hs hidle hcheck hbatch (hlen ▸ hfull), fun hroom =>
    ⟨_, exec_construct_of_room hs hidle hcheck hbatch (hlen ▸ hroom), by rw [replicateBits_length, hlen], ?_⟩⟩
  obtain ⟨hpreamble, hfirst, hlater⟩ := pocsagOps_groups s.cfg addrWord words rep hfo
  obtain ⟨hsync, hbefore, haddress, hbody⟩ := firstGroup_positions hfirst
  refine ⟨hpreamble, fun g hg => ?_, hbefore, haddress, hbody, fun j hj => ?_⟩
  · cases g with
    | zero => exact hsync
    | succ g =>
      obtain ⟨hgroupSync, -⟩ := bodyGroup_positions (hlater g (by omega))
      exact hgroupSync.of_pos_eq (by omega)
  · obtain ⟨-, hslots⟩ := bodyGroup_positions (hlater (j / 16) (by omega))
    rw [← getD_drop_group]
    exact hslots (j % 16) (Nat.mod_lt j (by decide))

end Sys2Proof.Machine
end

section
/-! The micro-ops of the bit queue (R251 to R253): each is one append, and an append has room or is CapacityError. -/

namespace Sys2Proof.Machine

section OneAppend
variable {i : Instr} {s : State} {rep : Nat} {bits : List Bit}

/-- An instruction that is an append of `bits`, with room for them (R251 to R253). -/
theorem exec_append_of_room (h : exec i s = .next (appendBits rep bits s))
    (hroom : s.q.length + bits.length * rep ≤ s.cfg.queueCapacity.val) :
    exec i s = .next { s with q := s.q ++ replicateBits rep bits } := by
  rw [h, appendBits_of_room (by rwa [Nat.mul_comm])]

/-- The same without room: CapacityError, whose code is 5 (R256, R318). -/
theorem exec_append_of_full (h : exec i s = .next (appendBits rep bits s))
    (hfull : s.cfg.queueCapacity.val < s.q.length + bits.length * rep) : exec i s = .next (errorState 5#3 s) := by
  rw [h, appendBits_of_full (by rwa [Nat.mul_comm]), enterError_eq_errorState]
  rfl

end OneAppend

/-- Settles O34: QBIT is the append of one bit. -/
theorem qbitAppendsRCopies : Obligations.QbitAppendsRCopies := by
  intro b s sq hs
  have happend := exec_qbit_of_seq b hs
  refine ⟨by cases b <;> rfl, fun hroom => ?_, fun hfull => ?_⟩
  · have hbits : replicateBits sq.rep [b] = List.replicate sq.rep b := List.flatMap_singleton _ b
    rw [← hbits]
    exact exec_append_of_room happend (by rwa [List.length_singleton, Nat.one_mul])
  · exact exec_append_of_full happend (by rwa [List.length_singleton, Nat.one_mul])

/-- Settles O35: QWORD is the append of the word's bits, and the word stands at the start of them replicated (R255). -/
theorem qwordAppendsMsbFirst : Obligations.QwordAppendsMsbFirst := by
  intro w s sq hs
  have happend := exec_qword_of_seq w hs
  refine ⟨rfl, fun hroom => ?_, fun hfull => exec_append_of_full happend (by rwa [msbBits_length])⟩
  refine ⟨replicateBits sq.rep (msbBits w), exec_append_of_room happend (by rwa [msbBits_length]), ?_, ?_⟩
  · rw [replicateBits_length, msbBits_length, Nat.mul_comm]
  · have hword : WordAt (replicateBits sq.rep (msbBits w)) sq.rep 0 w :=
      wordAt_iff_bitsAt.mpr (bitsAt_replicateBits sq.rep (msbBits w))
    intro k hk j hj
    simpa only [Nat.zero_add] using hword k hk j hj

/-- Settles O36: each of the four identifiers names its pattern, and QVEC is the append of the pattern named. -/
theorem qvecAppendsItsPattern : Obligations.QvecAppendsItsPattern := by
  intro s sq pid bits hs hpid
  have hpattern : pattern s.cfg pid = some bits := by
    rcases hpid with ⟨rfl, rfl⟩ | ⟨rfl, rfl⟩ | ⟨rfl, rfl⟩ | ⟨rfl, rfl⟩ <;> rfl
  have happend := exec_qvec_of_pattern hs hpattern
  exact ⟨rfl, exec_append_of_room happend, exec_append_of_full happend⟩

end Sys2Proof.Machine
end

section
/-! Runs of FETCH commands (R258, R259): what one FETCH delivers, and that deliveries one after another are one delivery of the
counts' sum. -/

namespace Sys2Proof.Machine

/-! ## The symbols of the responses -/

theorem streamOf_append (rs rs' : List Response) : streamOf (rs ++ rs') = streamOf rs ++ streamOf rs' :=
  List.flatMap_append

theorem streamOf_symbols (list : List Symbol) : streamOf [.symbols list] = list := List.append_nil list

theorem streamOf_eos : streamOf [.eos] = [] := rfl

/-! ## Deliveries -/

/-- From `s` to `t` the first `n` queue bits, or as many as there are, were delivered as symbols and left the queue (R258). -/
structure Delivered (n : Nat) (s t : State) : Prop where
  stream : streamOf t.responses = streamOf s.responses ++ drained n s
  queue  : t.q = s.q.drop n

theorem Delivered.zero (s : State) : Delivered 0 s s where
  stream := (List.append_nil _).symm
  queue := rfl

/-- Two deliveries are one of both counts: R259 for two chunks. -/
theorem Delivered.trans {m n : Nat} {s t u : State} (h : Delivered m s t) (h' : Delivered n t u) :
    Delivered (m + n) s u where
  stream := by
    have hdrained : drained (m + n) s = drained m s ++ drained n t := by
      rw [drained, List.take_add, List.map_append, ← h.queue, drained, drained]
    rw [h'.stream, h.stream, hdrained, List.append_assoc]
  queue := by rw [h'.queue, h.queue, List.drop_drop]

theorem Delivered.drain (n : Nat) (s : State) :
    Delivered n s (respond (.symbols (drained n s)) (drain n s)) where
  stream := by rw [respond_responses, streamOf_append, streamOf_symbols, drain_responses]
  queue := rfl

/-- EOS delivers nothing, which from an empty queue is all there is, whatever the count and the phase it leaves (R284). -/
theorem Delivered.eos (n : Nat) {s : State} (hq : s.q = []) (phase : Phase) :
    Delivered n s (respond .eos { s with phase := phase }) where
  stream := by rw [respond_responses, streamOf_append, streamOf_eos, drained, hq, List.take_nil, List.map_nil]
  queue := by rw [respond_q, hq, List.drop_nil]

/-! ## FETCH -/

/-- The states of a run of FETCH commands begun in READY: still READY, or DRAINED with nothing queued (R37, R284). -/
def Fetchable (s : State) : Prop := s.phase = .ready ∨ (s.phase = .drained ∧ s.q = [])

/-- One FETCH delivers its count, and another may follow. -/
theorem exec_fetch_delivers (n : Word) {s : State} (hs : Fetchable s) :
    ∃ t, exec (.fetch n) s = .next t ∧ Delivered n.toNat s t ∧ Fetchable t := by
  rcases execFetch_cases n s with ⟨hready, -, h⟩ | ⟨-, hq, h⟩ | ⟨hdrained, h⟩ | ⟨hother, -⟩
  · exact ⟨_, h, .drain n.toNat s, .inl hready⟩
  · exact ⟨_, h, .eos n.toNat hq .drained, .inr ⟨rfl, hq⟩⟩
  · have hq : s.q = [] := by
      rcases hs with hready | ⟨-, hq⟩
      · cases hready.symm.trans hdrained
      · exact hq
    exact ⟨_, h, .eos n.toNat hq s.phase, .inr ⟨hdrained, hq⟩⟩
  · rcases hs with hp | ⟨hp, -⟩ <;> simp [hp] at hother

/-- A run of FETCH commands delivers the sum of its counts. -/
theorem runInstrs_fetch_delivers (ns : List Word) {s : State} (hs : Fetchable s) :
    ∃ t, runInstrs (ns.map .fetch) s = .next t ∧ Delivered (ns.map BitVec.toNat).sum s t := by
  induction ns generalizing s with
  | nil => exact ⟨s, rfl, .zero s⟩
  | cons n ns ih =>
    obtain ⟨t, hfetch, hfirst, ht⟩ := exec_fetch_delivers n hs
    obtain ⟨u, hrun, hrest⟩ := ih ht
    refine ⟨u, (runInstrs_cons_of_next _ hfetch).trans hrun, ?_⟩
    rw [List.map_cons, List.sum_cons]
    exact hfirst.trans hrest

/-- Settles O17: READY may be fetched from, and a delivery of at least the queue's length is the whole queue. -/
theorem fetchChunkingIsInvariant : Obligations.FetchChunkingIsInvariant := by
  intro ns s hready
  obtain ⟨t, hrun, hstream, hqueue⟩ := runInstrs_fetch_delivers ns (.inl hready)
  refine ⟨t, hrun, hstream, hqueue, fun hall => ⟨?_, ?_⟩⟩
  · rw [hstream, drained, List.take_of_length_le hall]
  · rw [hqueue, List.drop_of_length_le hall]

end Sys2Proof.Machine
end

section
/-! What a CONSTRUCT that succeeds has queued (R283, R287): the whole batch its checks selected, which is at least one group of
544 bits per replication. -/

namespace Sys2Proof.Machine

/-- Arguments that pass the checks have a replication factor of at least 1, and it is the quotient of the rates (R250). -/
theorem checkArguments_ok {protocol msgType : BitVec 8} {baudRate symbolRate : Word} {p : Protocol} {mt : MsgType} {rep : Nat}
    (h : checkArguments protocol msgType baudRate symbolRate = .ok (p, mt, rep)) :
    rep = symbolRate.toNat / baudRate.toNat ∧ 1 ≤ rep := by
  unfold checkArguments at h
  split at h
  · cases h
  · split at h
    · cases h
    next hrates =>
      split at h
      · cases h
      · cases h
        obtain ⟨hbaud, hsymbol, hmod⟩ :
            baudRate.toNat ≠ 0 ∧ symbolRate.toNat ≠ 0 ∧ symbolRate.toNat % baudRate.toNat = 0 := by
          simpa only [not_or, not_not] using hrates
        have hle : baudRate.toNat ≤ symbolRate.toNat :=
          Nat.le_of_dvd (Nat.pos_of_ne_zero hsymbol) (Nat.dvd_of_mod_eq_zero hmod)
        exact ⟨rfl, Nat.div_pos hle (Nat.pos_of_ne_zero hbaud)⟩

/-! ## The length of a batch -/

/-- FLEX_BATCH is the ten frames or an error (R190). -/
theorem flexBatch_ok_frames {cfg : Config} {capcode : Word} {ops : List Instr} (h : flexBatch cfg capcode = .ok ops) :
    ∃ saddr, ops = (List.range 10).flatMap (flexFrameOps cfg saddr) := by
  unfold flexBatch at h
  split at h
  · split at h
    next saddr _ => exact ⟨saddr, (Except.ok.inj h).symm⟩
    · cases h
  · cases h

/-- POCSAG_BATCH is the preamble and the groups around an address word, or an error (R220). -/
theorem pocsagBatch_ok_groups {cfg : Config} {capcode : Word} {mt : MsgType} {body : Text} {ops : List Instr}
    (h : pocsagBatch cfg capcode mt body = .ok ops) :
    ∃ addrWord, ops = pocsagOps cfg (capcode.toNat % 8) addrWord (pocsagBody cfg mt body) := by
  cases haddr : buildPaddr cfg capcode (pocsagFunc cfg mt) with
  | ok addrWord => exact ⟨addrWord, Except.ok.inj (h.symm.trans (pocsagBatch_of_address body haddr))⟩
  | error e =>
    rw [pocsagBatch, haddr] at h
    cases h

/-- Ten frames of at least 1504 bits each (R199), or the preamble and at least one group of 544 bits (R230). -/
theorem batchProgram_length_ge {cfg : Config} {p : Protocol} {capcode : Word} {mt : MsgType} {body : Text} {ops : List Instr}
    (h : batchProgram cfg p capcode mt body = .ok ops) : 544 ≤ (programBits cfg ops).length := by
  cases p with
  | flex =>
    obtain ⟨saddr, rfl⟩ := flexBatch_ok_frames h
    rw [programBits_flexFrames_length, flexFrameLength]
    omega
  | pocsag =>
    obtain ⟨addrWord, rfl⟩ := pocsagBatch_ok_groups h
    rw [programBits_pocsagOps_length cfg addrWord _ (Nat.mod_lt _ (by decide))]
    omega

/-! ## Success -/

section Construct
variable {protocol msgType : BitVec 8} {baudRate symbolRate capcode : Word} {body : Text} {s t : State}

theorem exec_construct_of_argument_error {e : ErrorClass} (hidle : s.phase = .idle)
    (hcheck : checkArguments protocol msgType baudRate symbolRate = .error e) :
    exec (.construct protocol msgType baudRate symbolRate capcode body) s = .next (enterError e s) := by
  simp only [exec, execConstruct, hidle, if_true, hcheck]

theorem exec_construct_of_batch_error {p : Protocol} {mt : MsgType} {rep : Nat} {e : ErrorClass} (hidle : s.phase = .idle)
    (hcheck : checkArguments protocol msgType baudRate symbolRate = .ok (p, mt, rep))
    (hbatch : batchProgram s.cfg p capcode mt body = .error e) :
    exec (.construct protocol msgType baudRate symbolRate capcode body) s = .next (enterError e s) := by
  simp only [exec, execConstruct, hidle, if_true, hcheck, hbatch]

/-- From a consistent IDLE state only a batch that passed the checks and fits leads to READY, and it is the whole queue then
(R283). -/
theorem exec_construct_ready (hs : s.Consistent) (hidle : s.phase = .idle)
    (h : exec (.construct protocol msgType baudRate symbolRate capcode body) s = .next t) (hready : t.phase = .ready) :
    ∃ p mt rep ops, checkArguments protocol msgType baudRate symbolRate = .ok (p, mt, rep) ∧
      batchProgram s.cfg p capcode mt body = .ok ops ∧ t.q = replicateBits rep (programBits s.cfg ops) := by
  cases hcheck : checkArguments protocol msgType baudRate symbolRate with
  | error e =>
    obtain rfl := Host.Outcome.next.inj ((exec_construct_of_argument_error hidle hcheck).symm.trans h)
    cases hready
  | ok r =>
    obtain ⟨p, mt, rep⟩ := r
    cases hbatch : batchProgram s.cfg p capcode mt body with
    | error e =>
      obtain rfl := Host.Outcome.next.inj ((exec_construct_of_batch_error hidle hcheck hbatch).symm.trans h)
      cases hready
    | ok ops =>
      rcases Nat.lt_or_ge s.cfg.queueCapacity.val (rep * (programBits s.cfg ops).length) with hfull | hroom
      · obtain rfl := Host.Outcome.next.inj ((exec_construct_of_full hs hidle hcheck hbatch hfull).symm.trans h)
        cases hready
      · obtain rfl := Host.Outcome.next.inj ((exec_construct_of_room hs hidle hcheck hbatch hroom).symm.trans h)
        exact ⟨p, mt, rep, ops, rfl, hbatch, rfl⟩

end Construct

/-- Settles O46: the queue is the replicated batch, of at least 544 bits, and the replication factor is at least 1. -/
theorem successfulConstructQueuesAtLeastOneGroup : Obligations.SuccessfulConstructQueuesAtLeastOneGroup := by
  intro protocol msgType baudRate symbolRate capcode body s t hs hidle h hready
  obtain ⟨p, mt, rep, ops, hcheck, hbatch, hq⟩ := exec_construct_ready hs hidle h hready
  obtain ⟨rfl, hrep⟩ := checkArguments_ok hcheck
  have hlen : 544 * (symbolRate.toNat / baudRate.toNat) ≤ t.q.length := by
    rw [hq, replicateBits_length, Nat.mul_comm]
    exact Nat.mul_le_mul_left _ (batchProgram_length_ge hbatch)
  exact ⟨hlen, List.ne_nil_of_length_pos (by omega)⟩

end Sys2Proof.Machine
end

section
/-! The command port (R280, R281): a transaction it decodes or refuses is taken off it and answered once. -/

namespace Sys2Proof.Machine

theorem CommandResult.one_response {s t : State} (h : CommandResult s t) : ∃ a, t.responses = s.responses ++ [a] := by
  cases h <;> exact ⟨_, rfl⟩

theorem CommandResult.commands_eq {s t : State} (h : CommandResult s t) : t.commands = s.commands := by
  cases h <;> rfl

/-- A host command is over when it is answered (R280). -/
theorem CommandResult.between_commands {s t : State} (h : CommandResult s t) (hs : s.seq = none) : t.seq = none := by
  cases h with
  | failed e hp => rfl
  | built bits hp hroom => rfl
  | answered a => exact hs
  | reset => exact hs
  | fetched n hp => exact hs
  | exhausted hp hq => exact hs

/-- Settles O52: a step on a waiting transaction leaves a `CommandResult`, unless the transaction is malformed. -/
theorem everyCommandGetsExactlyOneResponse : Obligations.EveryCommandGetsExactlyOneResponse := by
  intro s tx rest hs hc hshape
  rcases step_between_commands s hs with ⟨hnil, -⟩ | ⟨tx', rest', hc', hmalformed, -⟩ | ⟨tx', rest', t, hc', hstep, hres⟩
  · cases hnil.symm.trans hc
  · obtain ⟨rfl, -⟩ := List.cons.inj (hc'.symm.trans hc)
    exact absurd hmalformed hshape
  · obtain ⟨-, rfl⟩ := List.cons.inj (hc'.symm.trans hc)
    obtain ⟨a, ha⟩ := hres.one_response
    exact ⟨t, a, hstep, hres.commands_eq, ha, hres.between_commands hs⟩

theorem step_of_refused {s : State} {tx : Transaction} {rest : List Transaction} {reason : RefuseReason} (hs : s.seq = none)
    (hc : s.commands = tx :: rest) (hd : decodeHost tx = .refuse reason) :
    step s = .next (refuse reason { s with commands := rest }) := by
  simp [step, fetchAndRun, hs, commandStep, hc, hd]

/-- Settles O10: the step takes the command port's refusing branch. -/
theorem stepAnswersARefusedCommand : Obligations.StepAnswersARefusedCommand := by
  intro s tx rest reason hs hc hd
  exact step_of_refused hs hc hd

end Sys2Proof.Machine
end

section
/-! RESET, READ_STATUS, FETCH and the pure commands (R282, R284 to R286), each as one equation per outcome. -/

namespace Sys2Proof.Machine

/-! ## RESET -/

theorem exec_reset (s : State) : exec .reset s = .next (respond .ok (resetFields s)) := rfl

/-- Settles O14: RESET looks at no field of the state. -/
theorem resetCommandRestoresTheInitialState : Obligations.ResetCommandRestoresTheInitialState :=
  ⟨rfl, exec_reset⟩

/-! ## READ_STATUS -/

/-- STATUS as a word of packed fields (R35). -/
theorem statusWord_eq (s : State) : statusWord s = fieldAt 2 s.err ||| fieldAt 0 s.phase.code := by
  rw [statusWord, fieldAt_zero_eq_setWidth, fieldAt]

theorem statusWord_fields (s : State) : (statusWord s).extractLsb' 0 2 = s.phase.code ∧
    (statusWord s).extractLsb' 2 3 = s.err ∧ (statusWord s).extractLsb' 5 27 = 0#27 := by
  simp [statusWord_eq, BitVec.extractLsb'_or, extractLsb'_fieldAt_self, extractLsb'_fieldAt_disjoint]

/-- A queue within its capacity, which is below 2^32, has its length as QLEN (R36). -/
theorem qlenWord_toNat {s : State} (hb : s.Bounded) : (qlenWord s).toNat = s.q.length := by
  rw [qlenWord, BitVec.toNat_ofNat]
  exact Nat.mod_eq_of_lt (Nat.lt_of_le_of_lt hb s.cfg.queueCapacity.isLt)

theorem qlenWord_of_empty {s : State} (hq : s.q = []) : qlenWord s = 0#32 := by
  rw [qlenWord, hq]
  rfl

/-- Settles O15: the fields of STATUS, and QLEN, which outside READY is that of an empty queue. -/
theorem readStatusReportsPhaseErrorAndLength : Obligations.ReadStatusReportsPhaseErrorAndLength := by
  refine ⟨rfl, fun s => ⟨statusWord s, qlenWord s, rfl, ?_⟩⟩
  obtain ⟨hphase, herr, hzero⟩ := statusWord_fields s
  rw [hphase]
  refine ⟨congrArg Phase.code, congrArg Phase.code, congrArg Phase.code, congrArg Phase.code, herr, hzero, qlenWord_toNat, ?_⟩
  intro hs hp
  refine qlenWord_of_empty (hs.readyOnly fun hready => ?_)
  simp [hready] at hp

/-! ## FETCH -/

theorem exec_fetch_of_exhausted {s : State} (n : Word) (hp : s.phase = .ready) (hq : s.q = []) :
    exec (.fetch n) s = .next (respond .eos { s with phase := .drained }) := by
  simp only [exec, execFetch, hp, hq, if_true]

theorem exec_fetch_of_drained {s : State} (n : Word) (hp : s.phase = .drained) :
    exec (.fetch n) s = .next (respond .eos s) := by
  simp only [exec, execFetch, hp]

theorem exec_fetch_of_no_batch {s : State} (n : Word) (hp : s.phase = .idle ∨ s.phase = .failed) :
    exec (.fetch n) s = .next (refuse .wrongPhase s) := by
  rcases hp with hp | hp <;> simp only [exec, execFetch, hp]

/-- Settles O16: one equation per phase, two for READY. -/
theorem fetchDeliversFromTheFront : Obligations.FetchDeliversFromTheFront := by
  intro n s
  exact ⟨rfl, exec_fetch_of_ready n, exec_fetch_of_exhausted n, exec_fetch_of_drained n, exec_fetch_of_no_batch n⟩

/-! ## The pure commands -/

/-- Of the pure commands only the two builders with checks can answer anything but a value (R164, R166, R286). -/
theorem exec_pure_value_or_checked {i : Instr} (h : i.isPure = true) (s : State) :
    (∃ v, exec i s = .next (respond (.value v) s)) ∨ (∃ address, i = .buildSaddr address) ∨
      ∃ capcode func, i = .buildPaddr capcode func := by
  cases i <;> simp [Instr.isPure] at h
  case buildSaddr address => exact .inr (.inl ⟨address, rfl⟩)
  case buildPaddr capcode func => exact .inr (.inr ⟨capcode, func, rfl⟩)
  all_goals exact .inl ⟨_, rfl⟩

/-- Settles O33: the errors are those `buildSaddr` and `buildPaddr` can return. -/
theorem pureCommandsWriteNoState : Obligations.PureCommandsWriteNoState := by
  intro i s hpure
  rcases exec_pure_value_or_checked hpure s with ⟨v, h⟩ | ⟨address, rfl⟩ | ⟨capcode, func, rfl⟩
  · exact ⟨.value v, h, .inl ⟨v, rfl⟩⟩
  · rw [exec_buildSaddr]
    cases hb : buildSaddr s.cfg address with
    | ok v => exact ⟨.value v, rfl, .inl ⟨v, rfl⟩⟩
    | error e =>
      obtain rfl := buildSaddr_error hb
      exact ⟨.error 2#3, rfl, .inr (.inl ⟨rfl, .inl ⟨address, rfl⟩⟩)⟩
  · rw [exec_buildPaddr]
    cases hb : buildPaddr s.cfg capcode func with
    | ok v => exact ⟨.value v, rfl, .inl ⟨v, rfl⟩⟩
    | error e =>
      rcases buildPaddr_error hb with rfl | rfl
      · exact ⟨.error 2#3, rfl, .inr (.inl ⟨rfl, .inr ⟨capcode, func, rfl⟩⟩)⟩
      · exact ⟨.error 4#3, rfl, .inr (.inr ⟨rfl, capcode, func, rfl⟩)⟩

end Sys2Proof.Machine
end

section
/-! The transitions of the phase (R288): what RESET, a CONSTRUCT in IDLE and a FETCH on an empty queue change, and that nothing
else changes the phase. -/

namespace Sys2Proof.Machine

/-- A CONSTRUCT in IDLE ends in READY without an error or in FAILED with one (R283, R318). -/
theorem exec_construct_phase_err {p m : BitVec 8} {b y c : Word} {body : Text} {s t : State} (hidle : s.phase = .idle)
    (h : exec (.construct p m b y c body) s = .next t) :
    t.phase = .ready ∧ t.err = 0#3 ∨ t.phase = .failed ∧ t.err ≠ 0#3 := by
  rcases execConstruct_cases p m b y c body s with ⟨hp, -⟩ | ⟨-, e, hx⟩ | ⟨-, bits, -, hx⟩
  · exact absurd hidle hp
  · obtain rfl := Host.Outcome.next.inj (hx.symm.trans h)
    exact .inr ⟨rfl, e.code_ne_zero⟩
  · obtain rfl := Host.Outcome.next.inj (hx.symm.trans h)
    exact .inl ⟨rfl, rfl⟩

/-- Every other host command keeps the phase: it only answers, or it is a FETCH in READY with bits queued. -/
theorem exec_keeps_phase {i : Instr} {s t : State} (hm : i.isMicro = false) (h : exec i s = .next t) (hreset : i ≠ .reset)
    (hconstruct : (∃ p m b y c body, i = .construct p m b y c body) → s.phase ≠ .idle)
    (hfetch : (∃ n, i = .fetch n) → s.phase = .ready → s.q ≠ []) : t.phase = s.phase := by
  by_cases hdrains : (∃ n, i = .fetch n) ∧ s.phase = .ready
  · obtain ⟨⟨n, rfl⟩, hready⟩ := hdrains
    obtain rfl := Host.Outcome.next.inj ((exec_fetch_of_ready n hready (hfetch ⟨n, rfl⟩ hready)).symm.trans h)
    rfl
  · obtain ⟨a, ha⟩ := exec_only_answers hm hreset hconstruct fun hf hready => hdrains ⟨hf, hready⟩
    obtain rfl := Host.Outcome.next.inj (ha.symm.trans h)
    rfl

/-- The same for a step on a transaction, which may be one the decoder refuses. -/
theorem step_keeps_phase {s t : State} {tx : Transaction} {rest : List Transaction} (hs : s.seq = none)
    (hc : s.commands = tx :: rest) (h : step s = .next t) (hreset : decodeHost tx ≠ .command .reset)
    (hconstruct : (∃ p m b y c body, decodeHost tx = .command (.construct p m b y c body)) → s.phase ≠ .idle)
    (hfetch : (∃ n, decodeHost tx = .command (.fetch n)) → s.phase = .ready → s.q ≠ []) : t.phase = s.phase := by
  cases hd : decodeHost tx with
  | malformed => cases (step_of_malformed hs hc hd).symm.trans h
  | refuse reason =>
    obtain rfl := Host.Outcome.next.inj ((step_of_refused hs hc hd).symm.trans h)
    rfl
  | command i =>
    simp only [hd, HostDecode.command.injEq, ne_eq] at hreset hconstruct hfetch
    exact exec_keeps_phase (s := { s with commands := rest }) (decodeHost_isMicro hd)
      ((step_of_decodeHost hs hc hd).symm.trans h) hreset hconstruct hfetch

/-- Settles O53: three kinds of command change the phase, and the last clause is all the others. -/
theorem phaseChangesOnlyAsListed : Obligations.PhaseChangesOnlyAsListed := by
  intro s t tx rest hs hc h
  have hexec {i : Instr} (hd : decodeHost tx = .command i) : exec i { s with commands := rest } = .next t :=
    (step_of_decodeHost hs hc hd).symm.trans h
  by_cases hreset : decodeHost tx = .command .reset
  · obtain rfl := Host.Outcome.next.inj (hexec hreset)
    exact .inl ⟨hreset, rfl⟩
  by_cases hconstruct : (∃ p m b y c body, decodeHost tx = .command (.construct p m b y c body)) ∧ s.phase = .idle
  · obtain ⟨⟨p, m, b, y, c, body, hd⟩, hidle⟩ := hconstruct
    exact .inr (.inl ⟨⟨p, m, b, y, c, body, hd⟩, hidle,
      exec_construct_phase_err (s := { s with commands := rest }) hidle (hexec hd)⟩)
  by_cases hfetch : (∃ n, decodeHost tx = .command (.fetch n)) ∧ s.phase = .ready ∧ s.q = []
  · obtain ⟨⟨n, hd⟩, hready, hempty⟩ := hfetch
    obtain rfl := Host.Outcome.next.inj
      ((exec_fetch_of_exhausted (s := { s with commands := rest }) n hready hempty).symm.trans (hexec hd))
    exact .inr (.inr (.inl ⟨⟨n, hd⟩, hready, hempty, rfl⟩))
  · have hconstruct' := not_and.mp hconstruct
    have hfetch' : (∃ n, decodeHost tx = .command (.fetch n)) → s.phase = .ready → s.q ≠ [] :=
      fun hf hready hempty => hfetch ⟨hf, hready, hempty⟩
    exact .inr (.inr (.inr ⟨step_keeps_phase hs hc h hreset hconstruct' hfetch', hreset, hconstruct', hfetch'⟩))

end Sys2Proof.Machine
end

section
/-! The order of CONSTRUCT's checks (R314): each check as an equation on its own arguments, whichever protocol is selected. -/

namespace Sys2Proof.Machine

/-! ## The arguments: checks (1) to (3) -/

/-- Protocol codes 2 to 255 are unrecognized (R121). -/
theorem protocolOf_of_ge_two {code : BitVec 8} (h : 2 ≤ code.toNat) : protocolOf code = none := by
  unfold protocolOf
  split
  case h_3 => rfl
  all_goals omega

/-- Message type codes 2 to 255 are unrecognized (R121). -/
theorem msgTypeOf_of_ge_two {code : BitVec 8} (h : 2 ≤ code.toNat) : msgTypeOf code = none := by
  unfold msgTypeOf
  split
  case h_3 => rfl
  all_goals omega

theorem protocolOf_of_lt_two {code : BitVec 8} (h : code.toNat < 2) : ∃ p, protocolOf code = some p := by
  have hcode : code.toNat = 0 ∨ code.toNat = 1 := by omega
  rcases hcode with h | h
  · exact ⟨.flex, by simp only [protocolOf, h]⟩
  · exact ⟨.pocsag, by simp only [protocolOf, h]⟩

/-- The rates R314 (2) rejects: one of them zero, or the symbol rate no multiple of the baud rate. -/
def BadRates (baudRate symbolRate : Word) : Prop :=
  baudRate = 0#32 ∨ symbolRate = 0#32 ∨ symbolRate.toNat % baudRate.toNat ≠ 0

/-- `BadRates` is the condition `checkArguments` tests, on words in place of their values. -/
theorem badRates_iff (baudRate symbolRate : Word) : BadRates baudRate symbolRate ↔
    baudRate.toNat = 0 ∨ symbolRate.toNat = 0 ∨ symbolRate.toNat % baudRate.toNat ≠ 0 := by
  rw [BadRates, BitVec.toNat_eq, BitVec.toNat_eq]
  rfl

section Arguments
variable {protocol msgType : BitVec 8} {baudRate symbolRate : Word} {p : Protocol} {mt : MsgType}

theorem checkArguments_of_unknown_protocol (hp : 2 ≤ protocol.toNat) :
    checkArguments protocol msgType baudRate symbolRate = .error .configuration := by
  simp only [checkArguments, protocolOf_of_ge_two hp]

theorem checkArguments_of_bad_rates (hp : protocolOf protocol = some p) (hbad : BadRates baudRate symbolRate) :
    checkArguments protocol msgType baudRate symbolRate = .error .configuration := by
  simp only [checkArguments, hp, if_pos ((badRates_iff _ _).mp hbad)]

theorem checkArguments_of_unknown_type (hp : protocolOf protocol = some p) (hgood : ¬ BadRates baudRate symbolRate)
    (hmt : 2 ≤ msgType.toNat) : checkArguments protocol msgType baudRate symbolRate = .error .unsupportedType := by
  simp only [checkArguments, hp, if_neg ((badRates_iff _ _).not.mp hgood), msgTypeOf_of_ge_two hmt]

theorem checkArguments_of_known (hp : protocolOf protocol = some p) (hgood : ¬ BadRates baudRate symbolRate)
    (hmt : msgTypeOf msgType = some mt) :
    checkArguments protocol msgType baudRate symbolRate = .ok (p, mt, symbolRate.toNat / baudRate.toNat) := by
  simp only [checkArguments, hp, if_neg ((badRates_iff _ _).not.mp hgood), hmt]

end Arguments

/-! ## The address: check (4) -/

theorem flexBatch_of_out_of_range {cfg : Config} {capcode : Word}
    (h : flexAddress cfg capcode < 32769 ∨ 1966080 < flexAddress cfg capcode) :
    flexBatch cfg capcode = .error .range := by
  refine if_neg fun hok => ?_
  have hin := (shortAddressOk_iff _).mp hok
  omega

theorem pocsagBatch_of_address_error {cfg : Config} {capcode : Word} {mt : MsgType} {e : ErrorClass} (body : Text)
    (haddr : buildPaddr cfg capcode (pocsagFunc cfg mt) = .error e) : pocsagBatch cfg capcode mt body = .error e := by
  rw [pocsagBatch, haddr]

/-- The function bits of a recognized message type, by its code (R13, R121). -/
theorem pocsagFunc_of_code (cfg : Config) {msgType : BitVec 8} {mt : MsgType} (h : msgTypeOf msgType = some mt) :
    pocsagFunc cfg mt = if msgType = 0#8 then cfg.pocsagFuncNumeric else cfg.pocsagFuncAlpha := by
  unfold msgTypeOf at h
  split at h
  case h_1 hcode =>
    obtain rfl := Option.some.inj h
    rw [if_pos (BitVec.eq_of_toNat_eq hcode)]
    rfl
  case h_2 hcode =>
    obtain rfl := Option.some.inj h
    rw [if_neg fun hzero => by simp [hzero] at hcode]
    rfl
  case h_3 => cases h

/-- Settles O41: each clause is the equation of its check, those of the checks before it having passed. -/
theorem constructReportsItsFirstError : Obligations.ConstructReportsItsFirstError := by
  intro protocol msgType baudRate symbolRate capcode body s hidle
  refine ⟨?_, ?_, ?_, ?_, ?_, ?_⟩
  · intro hprotocol
    exact exec_construct_of_argument_error hidle (checkArguments_of_unknown_protocol hprotocol)
  · intro hprotocol hbad
    obtain ⟨p, hp⟩ := protocolOf_of_lt_two hprotocol
    exact exec_construct_of_argument_error hidle (checkArguments_of_bad_rates hp hbad)
  · intro hprotocol hgood htype
    obtain ⟨p, hp⟩ := protocolOf_of_lt_two hprotocol
    exact exec_construct_of_argument_error hidle (checkArguments_of_unknown_type hp hgood htype)
  · rintro rfl hgood htype haddress
    obtain ⟨mt, hmt⟩ := msgTypeOf_of_lt_two htype
    exact exec_construct_of_batch_error hidle (checkArguments_of_known (p := .flex) rfl hgood hmt)
      (flexBatch_of_out_of_range haddress)
  · rintro rfl hgood htype habove
    obtain ⟨mt, hmt⟩ := msgTypeOf_of_lt_two htype
    exact exec_construct_of_batch_error hidle (checkArguments_of_known (p := .pocsag) rfl hgood hmt)
      (pocsagBatch_of_address_error body (buildPaddr_of_above s.cfg _ habove))
  · rintro rfl hgood htype - hinconsistent
    obtain ⟨mt, hmt⟩ := msgTypeOf_of_lt_two htype
    exact exec_construct_of_batch_error hidle (checkArguments_of_known (p := .pocsag) rfl hgood hmt)
      (pocsagBatch_of_address_error body (hinconsistent _ (pocsagFunc_of_code s.cfg hmt)))

end Sys2Proof.Machine
end

section
/-! CONSTRUCT as a whole (R313, R316): one of three endings, which arguments and configuration decide. -/

namespace Sys2Proof.Machine

/-- The classes before CapacityError have the codes 1 to 4 (R311). -/
theorem ErrorClass.code_range_of_ne_capacity {e : ErrorClass} (h : e ≠ .capacity) :
    1 ≤ e.code.toNat ∧ e.code.toNat ≤ 4 := by
  cases e with
  | capacity => exact absurd rfl h
  | configuration => decide
  | range => decide
  | unsupportedType => decide
  | internalConsistency => decide

theorem checkArguments_error_ne_capacity {protocol msgType : BitVec 8} {baudRate symbolRate : Word} {e : ErrorClass}
    (h : checkArguments protocol msgType baudRate symbolRate = .error e) : e ≠ .capacity := by
  rcases checkArguments_error h with rfl | rfl <;> simp

theorem batchProgram_error_ne_capacity {cfg : Config} {p : Protocol} {capcode : Word} {mt : MsgType} {body : Text}
    {e : ErrorClass} (h : batchProgram cfg p capcode mt body = .error e) : e ≠ .capacity := by
  rcases batchProgram_error h with rfl | rfl <;> simp

/-- Between commands error entry has no sequencer to stop (R79, R318). -/
theorem State.Consistent.errorState_eq {s : State} (hs : s.Consistent) (code : BitVec 3) : errorState code s =
    { s with phase := .failed, err := code, q := [], responses := s.responses ++ [.error code] } := by
  rw [errorState, hs.boundary]

section Construct
variable (protocol msgType : BitVec 8) (baudRate symbolRate capcode : Word) (body : Text)

/-- The checks of R314 (1) to (4) either select a micro-program or end every CONSTRUCT in IDLE under that configuration in one
error entry, which is not CapacityError's. -/
theorem construct_checks_cases (cfg : Config) :
    (∃ p mt rep ops, checkArguments protocol msgType baudRate symbolRate = .ok (p, mt, rep) ∧
        batchProgram cfg p capcode mt body = .ok ops) ∨
      (∃ e : ErrorClass, e ≠ .capacity ∧ ∀ s : State, s.cfg = cfg → s.phase = .idle →
        exec (.construct protocol msgType baudRate symbolRate capcode body) s = .next (errorState e.code s)) := by
  cases hcheck : checkArguments protocol msgType baudRate symbolRate with
  | error e =>
    exact .inr ⟨e, checkArguments_error_ne_capacity hcheck, fun s _ hidle =>
      exec_construct_of_argument_error hidle hcheck⟩
  | ok r =>
    obtain ⟨p, mt, rep⟩ := r
    cases hbatch : batchProgram cfg p capcode mt body with
    | error e =>
      refine .inr ⟨e, batchProgram_error_ne_capacity hbatch, fun s hcfg hidle => ?_⟩
      subst hcfg
      exact exec_construct_of_batch_error hidle hcheck hbatch
    | ok ops => exact .inl ⟨p, mt, rep, ops, rfl, hbatch⟩

/-- Arguments and configuration alone decide what CONSTRUCT writes and answers from a consistent IDLE state (R316). -/
theorem exec_construct_determined (cfg : Config) :
    ∃ phase err q a, ∀ s : State, s.cfg = cfg → s.Consistent → s.phase = .idle →
      exec (.construct protocol msgType baudRate symbolRate capcode body) s =
        .next { s with phase := phase, err := err, q := q, responses := s.responses ++ [a] } := by
  rcases construct_checks_cases protocol msgType baudRate symbolRate capcode body cfg with
    ⟨p, mt, rep, ops, hcheck, hbatch⟩ | ⟨e, -, hfail⟩
  · rcases Nat.lt_or_ge cfg.queueCapacity.val (rep * (programBits cfg ops).length) with hfull | hroom
    · refine ⟨.failed, 5#3, [], .error 5#3, fun s hcfg hs hidle => ?_⟩
      subst hcfg
      rw [exec_construct_of_full hs hidle hcheck hbatch hfull, hs.errorState_eq]
    · refine ⟨.ready, 0#3, replicateBits rep (programBits cfg ops), .ok, fun s hcfg hs hidle => ?_⟩
      subst hcfg
      exact exec_construct_of_room hs hidle hcheck hbatch hroom
  · refine ⟨.failed, e.code, [], .error e.code, fun s hcfg hs hidle => ?_⟩
    rw [hfail s hcfg hidle, hs.errorState_eq]

end Construct

/-- Settles O45: a selected micro-program fits or does not, and without one a check has failed. -/
theorem constructIsAllOrNothing : Obligations.ConstructIsAllOrNothing := by
  intro protocol msgType baudRate symbolRate capcode body s hs hidle
  refine ⟨fun p mt rep ops hcheck hbatch => ⟨?_, ?_⟩, fun hnone => ?_⟩
  · exact exec_construct_of_room hs hidle hcheck hbatch
  · exact exec_construct_of_full hs hidle hcheck hbatch
  · rcases construct_checks_cases protocol msgType baudRate symbolRate capcode body s.cfg with
      ⟨p, mt, rep, ops, hcheck, hbatch⟩ | ⟨e, hne, hfail⟩
    · exact absurd hbatch (hnone p mt rep ops hcheck)
    · obtain ⟨hlow, hhigh⟩ := ErrorClass.code_range_of_ne_capacity hne
      exact ⟨e.code, hlow, hhigh, hfail s rfl hidle⟩

/-- A CONSTRUCT that follows RESET runs from the state RESET leaves (R282). -/
theorem runInstrs_reset_construct {protocol msgType : BitVec 8} {baudRate symbolRate capcode : Word} {body : Text} {s t : State}
    (h : exec (.construct protocol msgType baudRate symbolRate capcode body) (respond .ok (resetFields s)) = .next t) :
    runInstrs [.reset, .construct protocol msgType baudRate symbolRate capcode body] s = .next t :=
  (runInstrs_cons_of_next _ (exec_reset s)).trans (runInstrs_cons_of_next [] h)

/-- Settles O47: both CONSTRUCTs start from consistent IDLE states with the same configuration. -/
theorem constructAfterResetForgetsThePast : Obligations.ConstructAfterResetForgetsThePast := by
  intro protocol msgType baudRate symbolRate capcode body s₁ s₂ hcfg hs₁ hs₂
  obtain ⟨phase, err, q, a, hrun⟩ :=
    exec_construct_determined protocol msgType baudRate symbolRate capcode body s₂.cfg
  have hrun₁ := hrun (respond .ok (resetFields s₁)) hcfg ((resetFields_consistent hs₁).respond _) rfl
  have hrun₂ := hrun (respond .ok (resetFields s₂)) rfl ((resetFields_consistent hs₂).respond _) rfl
  exact ⟨_, _, a, runInstrs_reset_construct hrun₁, runInstrs_reset_construct hrun₂, rfl, rfl, rfl,
    List.append_assoc _ _ _, List.append_assoc _ _ _⟩

end Sys2Proof.Machine
end

section
/-! What keeps the state: FAILED against every command but RESET (R319), and a step with nothing to do (R328). -/

namespace Sys2Proof.Machine

/-- Settles O54: in FAILED a transaction is refused, or is a command that only answers. -/
theorem failedIsLeftOnlyByReset : Obligations.FailedIsLeftOnlyByReset := by
  intro s t tx rest hs hfailed hc h hreset
  cases hd : decodeHost tx with
  | malformed => cases (step_of_malformed hs hc hd).symm.trans h
  | refuse reason =>
    obtain rfl := Host.Outcome.next.inj ((step_of_refused hs hc hd).symm.trans h)
    exact ⟨hfailed, rfl, rfl⟩
  | command i =>
    have hi : i ≠ .reset := fun hr => hreset (hr ▸ hd)
    rw [← hfailed]
    exact step_keeps_phase_err_queue hs hc hd h hi (fun _ => by simp [hfailed]) (fun _ => by simp [hfailed])

/-- Settles O11: the command port's empty branch. -/
theorem stepWithoutCommandKeepsTheState : Obligations.StepWithoutCommandKeepsTheState := by
  intro s hs hc
  exact step_of_idle hs hc

end Sys2Proof.Machine
end

section
/-! The state after RESET (R340), and a CONSTRUCT outside IDLE (R348). -/

namespace Sys2Proof.Machine

/-- IDLE has phase code 0, so without an error both fields of STATUS are zero (R35). -/
theorem statusWord_of_idle {s : State} (hphase : s.phase = .idle) (herr : s.err = 0#3) : statusWord s = 0#32 := by
  rw [statusWord, hphase, herr]
  decide

/-- Settles O13: the machine's reset state and the state RESET leaves are both IDLE without an error or a queued bit. -/
theorem stateAfterResetHasTheStatedValues : Obligations.StateAfterResetHasTheStatedValues := by
  refine ⟨⟨rfl, rfl, rfl, statusWord_of_idle rfl rfl, qlenWord_of_empty rfl⟩, fun s t h => ?_⟩
  obtain rfl := Host.Outcome.next.inj ((exec_reset s).symm.trans h)
  exact ⟨rfl, rfl, rfl, statusWord_of_idle rfl rfl, qlenWord_of_empty rfl, rfl⟩

theorem exec_construct_of_not_idle (protocol msgType : BitVec 8) (baudRate symbolRate capcode : Word) (body : Text)
    {s : State} (hphase : s.phase ≠ .idle) :
    exec (.construct protocol msgType baudRate symbolRate capcode body) s = .next (refuse .wrongPhase s) :=
  if_neg hphase

/-- Settles O40: a refusal only adds its response. -/
theorem constructIsRefusedOutsideIdle : Obligations.ConstructIsRefusedOutsideIdle := by
  intro protocol msgType baudRate symbolRate capcode body s hphase
  exact exec_construct_of_not_idle protocol msgType baudRate symbolRate capcode body hphase

end Sys2Proof.Machine
end
